-- ==== Sys2Proof/Word.lean ====
section
/-!
DEFINITION. Word.lean: the words RPK computes with, at the widths of spec 00_scope.md R6 and R10.
Every value is unsigned; RPK has no signed quantity and no sign extension (R10, R64).
-/

namespace Sys2Proof

/-- A 2-bit pair: a raw index, a mapped index, a convention code, a group position (R6, R10). -/
abbrev Pair := BitVec 2

/-- An 8-bit byte: `ACC`, `out_data`, `status`, a `Byte` event (R6, R9). -/
abbrev Byte := BitVec 8

/-- The operand `imm = cmd[7:0]`, unsigned 8 bits (R49). -/
abbrev Imm := BitVec 8

/-- A command word `cmd[11:0]` (R47). -/
abbrev CmdWord := BitVec 12

end Sys2Proof
end

