-- ==== Sys2Proof/Config.lean ====
section
/-!
DEFINITION. Config.lean: what is fixed for the machine, spec 00_scope.md R6. The spec leaves no
value free (93_implementation_defined.md: none of the words undefined, unpredictable or
implementation-defined occurs), so no opaque constant stands here. The named conventions are a
closed enumeration (41_palette_mapper.md R73, R82).
-/

namespace Sys2Proof

/-- Bits per pixel, `PIX_BITS` (R5, R6). -/
def Config.pixBits : Nat := 2

/-- Palette entries, `PALETTE` (R5, R6). -/
def Config.palette : Nat := 4

/-- Pixels per output byte, `GROUP` (R6). -/
def Config.group : Nat := 4

/-- Output byte width, `BYTE_W` (R6). -/
def Config.byteW : Nat := 8

/-- Named conventions, `N_CONV` (R6, R73). -/
def Config.nConv : Nat := 4

/-- Command word width, `CMD_W` (R6, R47). -/
def Config.cmdW : Nat := 12

/-- Operand width, `IMM_W` (R6, R49). -/
def Config.immW : Nat := 8

/-- Status word width, `STATUS_W` (R6, R20). -/
def Config.statusW : Nat := 8

/-- Longest raster, `MAX_PIXELS`: no limit (R6; 92 D15; assumption 6). No rule reads it. -/
def Config.maxPixels : Option Nat := none

/-- The four named conventions, in the source's order (R73). -/
inductive Convention where
  | identity
  | blackTransparent
  | whiteTransparent
  | vectorSource
  deriving DecidableEq, Repr

/-- The numeric code of a convention (R73; 92 D6). -/
def Convention.code : Convention → Pair
  | .identity => 0#2
  | .blackTransparent => 1#2
  | .whiteTransparent => 2#2
  | .vectorSource => 3#2

end Sys2Proof
end

