-- ==== Sys2Proof/Syntax.lean ====
section
/-!
DEFINITION. Syntax.lean: the five commands of spec 30_encoding.md R47 and R50, one constructor
per row of spec/opcode_table.json. A word that spells none of them is illegal (R56) and is no
`Instr`; Decode.lean names its class.
-/

namespace Sys2Proof

/-- A command. The operand of `START` and `PIX` is all 8 bits of `imm`, so that an illegal value
can be presented and detected (R49). -/
inductive Instr where
  /-- `NOP`, R51, R83. -/
  | nop
  /-- `START conv`, R52, R79: the operand is the convention code. -/
  | start (conv : Imm)
  /-- `PIX v`, R53, R66: the operand is the raw pixel index. -/
  | pix (v : Imm)
  /-- `END`, R54, R68 (`end` is a word of Lean's own, hence the longer name). -/
  | endRaster
  /-- `CLR`, R55, R84. -/
  | clr
  deriving DecidableEq, Repr

end Sys2Proof
end

