-- ==== Sys2Proof/WellFormed.lean ====
section
/-!
DEFINITION. WellFormed.lean: which commands are well formed. Spec 30_encoding.md R52 and R53 make
every operand value 0..255 of `START` and `PIX` a well-formed encoding, and `NOP`, `END`, `CLR`
carry no operand, so no term of `Instr` is ill formed: the 8-bit operand type is the whole check.
The checks that can fail stand where their subject is: illegal words in Decode.lean (R56),
source lines with an operand above 255 in Machine/Assembler.lean (R59), register states that break
R23 in Machine/Ops.lean. Tests/Slice0.lean shows a refused term for each of them.
-/

namespace Sys2Proof

/-- Well-formedness of a command (R51 to R55): every constructor, at every operand value. -/
def Instr.wellFormed : Instr → Bool
  | .nop => true
  | .start _ => true
  | .pix _ => true
  | .endRaster => true
  | .clr => true

end Sys2Proof
end

