-- ==== Sys2Proof/Decode.lean ====
section
/-!
DEFINITION. Decode.lean: the decoder and, after it, the encoder, from spec 30_encoding.md R47 to
R56. The decoder is total on the 4096 command words: each is one of the five commands or illegal
under the name of its class.
-/

namespace Sys2Proof

/-- Why a word is illegal: the four classes of R56. -/
inductive IllegalWord where
  /-- R56 (a): `op` in `0x5..0xF`. -/
  | reservedOp
  /-- R56 (b): `op = 0x0` with a nonzero operand. -/
  | nopOperand
  /-- R56 (c): `op = 0x3` with a nonzero operand. -/
  | endOperand
  /-- R56 (d): `op = 0x4` with a nonzero operand. -/
  | clrOperand
  deriving DecidableEq, Repr

/-- Field `op = cmd[11:8]` (R47, R48). -/
def opField (w : CmdWord) : BitVec 4 := w.extractLsb' 8 4

/-- Field `imm = cmd[7:0]` (R47, R49). -/
def immField (w : CmdWord) : Imm := w.extractLsb' 0 8

/-- A command without operand: `imm` must be `0x00` (R49), else the word is illegal (R56). -/
def noOperand (imm : Imm) (i : Instr) (why : IllegalWord) : Except IllegalWord Instr :=
  if imm = 0#8 then .ok i else .error why

/-- Decode one command word (R48, R50, R56). It needs no state (R47). -/
def decode (w : CmdWord) : Except IllegalWord Instr :=
  if opField w = 0x0#4 then noOperand (immField w) .nop .nopOperand
  else if opField w = 0x1#4 then .ok (.start (immField w))
  else if opField w = 0x2#4 then .ok (.pix (immField w))
  else if opField w = 0x3#4 then noOperand (immField w) .endRaster .endOperand
  else if opField w = 0x4#4 then noOperand (immField w) .clr .clrOperand
  else .error .reservedOp

/-- The word a table row's bits spell. `nbits` is how many of them are given; the bits above are
zero. A number that does not fit the 12 lines of port `cmd` spells no command word (assumption 9). -/
def wordOfBits (nbits w : Nat) : Option CmdWord :=
  if w % 2 ^ nbits < 2 ^ Config.cmdW then some (BitVec.ofNat 12 (w % 2 ^ nbits)) else none

/-- The instruction the decoder reads from the bits `w` of a row of spec/opcode_table.json. -/
def decodeTableWord (nbits w : Nat) : Option Instr :=
  match wordOfBits nbits w with
  | none => none
  | some c =>
    match decode c with
    | .ok i => some i
    | .error _ => none

/-- The `op` number of a command (R48). -/
def Instr.op : Instr → BitVec 4
  | .nop => 0x0#4
  | .start _ => 0x1#4
  | .pix _ => 0x2#4
  | .endRaster => 0x3#4
  | .clr => 0x4#4

/-- The operand field of a command; `0x00` where it has none (R49). -/
def Instr.imm : Instr → Imm
  | .nop => 0x00#8
  | .start conv => conv
  | .pix v => v
  | .endRaster => 0x00#8
  | .clr => 0x00#8

/-- Encode a command: `op` in bits 11:8, `imm` in bits 7:0 (R47, R51 to R55). -/
def encode (i : Instr) : CmdWord := i.op.setWidth 12 <<< 8 ||| i.imm.setWidth 12

end Sys2Proof
end

