-- ==== Sys2Proof/Machine/State.lean ====
section
/-!
DEFINITION. Machine/State.lean: the state, from spec 10_state.md. The block's own state is `Regs`,
the five registers of R13 and nothing else (R27). Around it `State` keeps what a run of the model
needs and the block does not store: the levels the output lines had in the last step (R22, R24),
the output history `OUT` (00_scope.md R9) and the host's inputs still to be presented (R8, R24).
Assumptions 1, 2 and 3.
-/

namespace Sys2Proof.Machine

open Sys2Proof

/-- The five registers of RPK, 17 bits in all (R13). -/
structure Regs where
  /-- `PHASE` (R14): 0 IDLE, 1 ACTIVE, 2 ERR. -/
  phase : BitVec 2
  /-- `CONV` (R15): code of the convention of the last accepted `START`. -/
  conv : Pair
  /-- `ACC` (R16): mapped indices of the current group, pixel `j` in bit pair `j`. -/
  acc : Byte
  /-- `FILL` (R17): pixels of the current group already in `ACC`. -/
  fill : BitVec 2
  /-- `ERRCODE` (R18): the code of the error that put the block in phase ERR, or 0. -/
  errCode : BitVec 3
  deriving DecidableEq, Repr

/-- `PHASE` = IDLE (R14). -/
abbrev Phase.idle : BitVec 2 := 0#2
/-- `PHASE` = ACTIVE (R14). -/
abbrev Phase.active : BitVec 2 := 1#2
/-- `PHASE` = ERR (R14). -/
abbrev Phase.err : BitVec 2 := 2#2

/-- The registers after reset (R28). -/
def Regs.reset : Regs := { phase := 0#2, conv := 0#2, acc := 0x00#8, fill := 0#2, errCode := 0#3 }

/-- An output event (00_scope.md R9). -/
inductive Event where
  /-- `Byte(b)`. -/
  | byte (b : Byte)
  /-- `Done`. -/
  | done
  deriving DecidableEq, Repr

/-- The one-step output lines of R24 that are no view of a register. -/
structure Lines where
  /-- `out_valid`. -/
  outValid : Bool
  /-- `out_data`; `0x00` when `out_valid = 0`. -/
  outData : Byte
  /-- `done`. -/
  done : Bool
  deriving DecidableEq, Repr

/-- The lines in a step that emits nothing, and during reset (R22, R28). -/
def Lines.low : Lines := { outValid := false, outData := 0x00#8, done := false }

/-- What the host drives on the input ports for one step (R24). -/
structure PortIn where
  /-- `rst`. -/
  rst : Bool
  /-- `cmd_valid`. -/
  cmdValid : Bool
  /-- `cmd[11:0]`; ignored when `cmd_valid = 0` (R24). -/
  cmd : CmdWord
  deriving DecidableEq, Repr

/-- The state of a run: the block's registers, and the model's records around them. -/
structure State where
  /-- The block's registers (R13). -/
  regs : Regs
  /-- The output lines as the last step presented them (R22, R24; assumption 3). -/
  lines : Lines
  /-- The output history `OUT`, oldest event first (R9; assumption 1). -/
  out : List Event
  /-- The host's inputs still to be presented, next one first (R8, R24; assumption 2). -/
  inputs : List PortIn
  deriving DecidableEq, Repr

/-- The state right after reset (R28): every register at its stated value, the lines low,
`OUT = []`, and nothing presented. -/
def State.reset : State := { regs := Regs.reset, lines := Lines.low, out := [], inputs := [] }

/-- Why the machine stops with a fault: never. The four errors of 60_exceptions.md R89 are state
updates (R85: `raise` is "not an outcome outside the state space") and R85 and R115 give every
step a next state, so no constructor stands here. That is neither safe nor unsafe: nothing faults. -/
inductive Fault where
  deriving DecidableEq, Repr

/-- Why the model gives no meaning. -/
inductive Refusal where
  /-- Raised by an arm of `exec` whose instruction has no meaning yet; safe. No arm raises it. -/
  | notModelled (mnemonic : String)
  /-- Raised by `START`, `PIX`, `END` and illegal words in a register state that breaks
  10_state.md R23, to which "the spec gives it no meaning"; 93 V3 and 92 D28: the model refuses
  such a state. Safe (assumption 4). -/
  | unreachableState
  deriving DecidableEq, Repr

end Sys2Proof.Machine
end

