-- ==== Sys2Proof/Machine/Operands.lean ====
section
/-!
DEFINITION. Machine/Operands.lean: the one operand form of RPK (spec 30_encoding.md R49) and the
four 2-bit lanes of a byte (20_memory.md R35, 40_pixel_packer.md R63, R64, R67).
-/

namespace Sys2Proof.Machine

open Sys2Proof

/-- The range check of `START` and `PIX`: all 8 bits of `imm`, unsigned, against 3 (R49, R64, R65, R81). -/
def inRange (imm : Imm) : Bool := decide (imm ≤ 3#8)

/-- `imm[1:0]`, used only after the range check (R34, R66, R79). -/
def lowPair (imm : Imm) : Pair := imm.extractLsb' 0 2

/-- Lane `j` of a byte: bits `2j+1:2j` (R10, R63). -/
def lane (j : Nat) (b : Byte) : Pair := b.extractLsb' (2 * j) 2

/-- A mapped index placed in lane `j`, the other lanes zero: `zext_8(m) << 2j` (R64, R66). -/
def inLane (m : Pair) (j : Nat) : Byte := m.setWidth 8 <<< (2 * j)

/-- `pad(k)`: `z` in every lane from `k` to 3 (R67). -/
def pad (z : Pair) (k : Nat) : Byte :=
  (List.range Config.group).foldl (fun b j => if k ≤ j then b ||| inLane z j else b) 0x00#8

end Sys2Proof.Machine
end

