-- ==== Sys2Proof/Machine/Flags.lean ====
section
/-!
DEFINITION. Machine/Flags.lean: the status word and the output lines, spec 10_state.md R20, R22,
R24. RPK has no condition codes (R22).
-/

namespace Sys2Proof.Machine

open Sys2Proof

/-- `STATUS` (R20): bit 7 zero, `ERRCODE` in 6:4, `FILL` in 3:2, `PHASE` in 1:0. -/
def Regs.status (r : Regs) : Byte :=
  r.phase.setWidth 8 ||| r.fill.setWidth 8 <<< 2 ||| r.errCode.setWidth 8 <<< 4

/-- Port `status[7:0]` (R20, R24). -/
def State.status (s : State) : Byte := s.regs.status

/-- Port `err`: 1 exactly when `PHASE = ERR` (R22, R24). -/
def State.err (s : State) : Bool := s.regs.phase == Phase.err

/-- The lines' levels in a step that emits these events (00_scope.md R11 `Emit`; R22, R24). A step
emits at most one byte and at most one `Done` (R7). -/
def Lines.ofEvents : List Event → Lines
  | [] => Lines.low
  | .byte b :: es => { Lines.ofEvents es with outValid := true, outData := b }
  | .done :: es => { Lines.ofEvents es with done := true }

end Sys2Proof.Machine
end

