-- ==== Sys2Proof/Machine/Ops.lean ====
section
/-!
DEFINITION. Machine/Ops.lean: the shared operations: the convention ROM (spec 10_state.md R21),
the register invariants (R23), emitting events (00_scope.md R11), taking an error and the return
from it (60_exceptions.md R94, R97), and the phase test every command but `NOP` and `CLR` begins
with (42_control.md R85).
-/

namespace Sys2Proof.Machine

open Sys2Proof

/-- The convention ROM, address 0 to 15 (R21). -/
def conventionRom : List Pair :=
  [0#2, 1#2, 2#2, 3#2,  0#2, 1#2, 2#2, 3#2,  3#2, 2#2, 1#2, 0#2,  0#2, 3#2, 2#2, 1#2]

/-- `ROM(c, p)`: the entry at the 4-bit address `c, p` with `c` in the upper half (R21, R34). The
address is below 16, so the default is never taken. -/
def rom (c p : Pair) : Pair := conventionRom.getD (c ++ p).toNat 0#2

/-- R23 (a): `PHASE` is 0, 1 or 2. -/
def Regs.phaseLegal (r : Regs) : Bool := r.phase != 3#2

/-- R23 (b): for every `j` with `FILL <= j <= 3`, lane `j` of `ACC` is zero. -/
def Regs.lanesClear (r : Regs) : Bool :=
  (List.range Config.group).all fun j => decide (j < r.fill.toNat) || lane j r.acc == 0#2

/-- R23 (c): outside phase ACTIVE, `ACC` and `FILL` are zero. -/
def Regs.emptyOutsideActive (r : Regs) : Bool :=
  r.phase == Phase.active || (r.acc == 0x00#8 && r.fill == 0#2)

/-- R23 (d): `ERRCODE` is nonzero exactly in phase ERR, and at most 4. -/
def Regs.errCodeLegal (r : Regs) : Bool :=
  ((r.errCode != 0#3) == (r.phase == Phase.err)) && decide (r.errCode ≤ 4#3)

/-- The register invariants R23 (a) to (d). (R23 (e) is about a run, not about one state.) -/
def Regs.wf (r : Regs) : Bool :=
  r.phaseLegal && r.lanesClear && r.emptyOutsideActive && r.errCodeLegal

/-- A step that writes no register and emits nothing: the pulses fall (R22, R83, R96). -/
def quiet (s : State) : State := { s with lines := Lines.low }

/-- Write the registers and emit the events, together (20_memory.md R40; R11 `Emit`). -/
def commit (r : Regs) (evs : List Event) (s : State) : State :=
  { s with regs := r, lines := Lines.ofEvents evs, out := s.out ++ evs }

/-- The four errors (60_exceptions.md R89). -/
inductive RpkError where
  | invalidPixelValue
  | unknownConvention
  | illegalCommand
  | sequenceError
  deriving DecidableEq, Repr

/-- The code an error leaves in `ERRCODE` (R89). -/
def RpkError.code : RpkError → BitVec 3
  | .invalidPixelValue => 1#3
  | .unknownConvention => 2#3
  | .illegalCommand => 3#3
  | .sequenceError => 4#3

/-- Taking an error, `raise E` (60_exceptions.md R94): `CONV` is kept, nothing is emitted. -/
def raise (e : RpkError) (s : State) : State :=
  { s with
    regs := { s.regs with phase := Phase.err, errCode := e.code, acc := 0x00#8, fill := 0#2 }
    lines := Lines.low }

/-- The return from an error, and reset: every register to its reset value, nothing emitted
(R84, R97, R104). The host's record `OUT` is not the block's to clear (R84). -/
def recover (s : State) : State := { s with regs := Regs.reset, lines := Lines.low }

/-- The phase test of R85: in phase ERR the command is ignored (R96); else the outcome for IDLE or
for ACTIVE. A register state that breaks R23 has no meaning (assumption 4). -/
def byPhase (s : State) (onIdle onActive : State) : Host.Outcome State Fault Refusal :=
  if s.regs.wf = false then .refused .unreachableState
  else if s.regs.phase = Phase.err then .next (quiet s)
  else if s.regs.phase = Phase.idle then .next onIdle
  else .next onActive

end Sys2Proof.Machine
end

