-- ==== Sys2Proof/Machine/Control.lean ====
section
/-!
DEFINITION. Machine/Control.lean: the control family, spec 42_control.md: `NOP` (R83), `CLR` (R84),
and the execution of a word that spells no command (30_encoding.md R56, 60_exceptions.md R92).
-/

namespace Sys2Proof.Machine

open Sys2Proof

/-- `NOP` (R83): no register is written, nothing is emitted, in every phase. -/
def execNop (s : State) : Host.Outcome State Fault Refusal := .next (quiet s)

/-- `CLR` (R84): the registers to their reset values, in every phase. -/
def execClr (s : State) : Host.Outcome State Fault Refusal := .next (recover s)

/-- An illegal word (R56, R92): `IllegalCommand` in IDLE and in ACTIVE, ignored in ERR (R96). -/
def execIllegal (s : State) : Host.Outcome State Fault Refusal :=
  byPhase s (raise .illegalCommand s) (raise .illegalCommand s)

end Sys2Proof.Machine
end

