-- ==== Sys2Proof/Machine/PaletteMapper.lean ====
section
/-!
DEFINITION. Machine/PaletteMapper.lean: the palette mapper family, spec 41_palette_mapper.md: the
mapping function (R73) and the command `START` (R79 to R81).
-/

namespace Sys2Proof.Machine

open Sys2Proof

/-- `map_c` (R73): the row of the convention ROM for code `c`. -/
def mapIndex (c : Pair) (p : Pair) : Pair := rom c p

/-- Normal execution of `START` (R79). -/
def beginConversion (conv : Imm) (s : State) : State :=
  commit { s.regs with conv := lowPair conv, phase := Phase.active, acc := 0x00#8, fill := 0#2 } [] s

/-- `START conv` (R79, R81; order of tests R85): the phase before the operand (R95). -/
def execStart (conv : Imm) (s : State) : Host.Outcome State Fault Refusal :=
  byPhase s
    (if inRange conv then beginConversion conv s else raise .unknownConvention s)
    (raise .sequenceError s)

end Sys2Proof.Machine
end

