-- ==== Sys2Proof/Machine/PixelPacker.lean ====
section
/-!
DEFINITION. Machine/PixelPacker.lean: the pixel packer family, spec 40_pixel_packer.md: the
commands `PIX` (R65, R66) and `END` (R67, R68).
-/

namespace Sys2Proof.Machine

open Sys2Proof

/-- Normal execution of `PIX` (R66): the mapped index goes to lane `FILL`; the fourth completes the
group, and its byte leaves in this step. -/
def acceptPixel (p : Pair) (s : State) : State :=
  let b := s.regs.acc ||| inLane (mapIndex s.regs.conv p) s.regs.fill.toNat
  if s.regs.fill < 3#2 then commit { s.regs with acc := b, fill := s.regs.fill + 1#2 } [] s
  else commit { s.regs with acc := 0x00#8, fill := 0#2 } [.byte b] s

/-- `PIX v` (R66; order of tests R85): the phase before the operand (R95), the check on all 8 bits
(R65). -/
def execPix (v : Imm) (s : State) : Host.Outcome State Fault Refusal :=
  byPhase s
    (raise .sequenceError s)
    (if inRange v then acceptPixel (lowPair v) s else raise .invalidPixelValue s)

/-- The padded byte of R67: lanes `FILL` to 3 filled with the mapped raw index 0. -/
def paddedByte (r : Regs) : Byte := r.acc ||| pad (mapIndex r.conv 0#2) r.fill.toNat

/-- Normal execution of `END` (R68): the byte first, then `Done`; no byte when `FILL = 0`. -/
def finishConversion (s : State) : State :=
  commit { s.regs with phase := Phase.idle, acc := 0x00#8, fill := 0#2 }
    (if s.regs.fill = 0#2 then [.done] else [.byte (paddedByte s.regs), .done]) s

/-- `END` (R68; order of tests R85). -/
def execEnd (s : State) : Host.Outcome State Fault Refusal :=
  byPhase s (raise .sequenceError s) (finishConversion s)

end Sys2Proof.Machine
end

