-- ==== Sys2Proof/Machine/Dispatch.lean ====
section
/-!
DEFINITION. Machine/Dispatch.lean: one arm per command (spec 42_control.md R85).
-/

namespace Sys2Proof.Machine

open Sys2Proof

def exec (i : Instr) (s : State) : Host.Outcome State Fault Refusal :=
  match i with
  | .nop => Sys2Proof.Machine.execNop s
  | .start conv => Sys2Proof.Machine.execStart conv s
  | .pix v => Sys2Proof.Machine.execPix v s
  | .endRaster => Sys2Proof.Machine.execEnd s
  | .clr => Sys2Proof.Machine.execClr s

end Sys2Proof.Machine
end

