-- ==== Sys2Proof/Machine/Port.lean ====
section
/-!
DEFINITION. Machine/Port.lean: the input ports, spec 10_state.md R24: taking the host's next input,
reset over everything (70_reset_and_hazards.md R104), the command word's decoding and execution
(42_control.md R85).
-/

namespace Sys2Proof.Machine

open Sys2Proof

/-- Execute the command word of the step (R85). -/
def runWord (w : CmdWord) (s : State) : Host.Outcome State Fault Refusal :=
  match decode w with
  | .ok i => exec i s
  | .error _ => execIllegal s

/-- One driven input (R24): `rst` overrides a step (R104); with `cmd_valid = 0` no register
changes and the pulses are low. -/
def applyPort (p : PortIn) (s : State) : Host.Outcome State Fault Refusal :=
  if p.rst then .next (recover s)
  else if p.cmdValid then runWord p.cmd s
  else .next (quiet s)

/-- Take the host's next input. A host with nothing left to present changes nothing (70 R106;
assumption 2). -/
def takeInput (s : State) : Host.Outcome State Fault Refusal :=
  match s.inputs with
  | [] => .next (quiet s)
  | p :: rest => applyPort p { s with inputs := rest }

/-- The input that presents one command word (R24). -/
def PortIn.command (w : CmdWord) : PortIn := { rst := false, cmdValid := true, cmd := w }

/-- The input that holds reset for one step (R104). -/
def PortIn.reset : PortIn := { rst := true, cmdValid := false, cmd := 0#12 }

/-- The input of a cycle in which no command is presented (R24). -/
def PortIn.idle : PortIn := { rst := false, cmdValid := false, cmd := 0#12 }

/-- Put a command word in front of what the host still has to present. -/
def State.present (w : CmdWord) (s : State) : State :=
  { s with inputs := PortIn.command w :: s.inputs }

end Sys2Proof.Machine
end

