-- ==== Sys2Proof/Machine/Step.lean ====
section
/-!
DEFINITION. Machine/Step.lean: one step of the model (spec 00_scope.md R7, 42_control.md R85), the
placing of one command word, and runs of several steps.
-/

namespace Sys2Proof.Machine

open Sys2Proof

/-- One step: the host's next input, applied. -/
def step (s : State) : Host.Outcome State Fault Refusal := takeInput s

/-- `s` with the row's word as the host's next input (assumption 5). Bits that are no 12-bit word
cannot be driven on `cmd` (assumption 9): the state is then unchanged. -/
def State.withFetchWord (s : State) (nbits w : Nat) : State :=
  match wordOfBits nbits w with
  | some c => s.present c
  | none => s

/-- `n` steps, ending at the first outcome that is no next state. -/
def runSteps : Nat → State → Host.Outcome State Fault Refusal
  | 0, s => .next s
  | n + 1, s =>
    match step s with
    | .next t => runSteps n t
    | .fault f => .fault f
    | .refused r => .refused r

end Sys2Proof.Machine
end

