-- ==== Sys2Proof/Machine/Assembler.lean ====
section
/-!
DEFINITION. Machine/Assembler.lean: the textual form of a program and the two abbreviations, spec
30_encoding.md R59 and R60. White space and lines without a command, which R59 does not describe,
are assumption 7.
-/

namespace Sys2Proof.Machine

open Sys2Proof

/-- The operand of a `START` line: a number, or a convention's name (R59). -/
inductive StartOperand where
  | number (n : Nat)
  | named (c : Convention)
  deriving DecidableEq, Repr

/-- A source line (R59, R60). -/
inductive SourceLine where
  | nop
  | start (conv : StartOperand)
  | pix (v : Nat)
  | endRaster
  | clr
  /-- `PACK conv, [r0, ..., r(n-1)]` (R60 (a)). -/
  | pack (conv : StartOperand) (raster : List Nat)
  /-- `ABORT`, another name for `CLR` (R60 (b)). -/
  | abort
  deriving DecidableEq, Repr

/-- An operand is an unsigned integer 0..255 (R59). -/
def operand (n : Nat) : Option Imm :=
  if n < 2 ^ Config.immW then some (BitVec.ofNat 8 n) else none

/-- A convention's name stands for its code (R59). -/
def StartOperand.value : StartOperand → Option Imm
  | .number n => operand n
  | .named c => some (c.code.setWidth 8)

/-- Every operand of the line is an unsigned integer 0..255 (R59). -/
def SourceLine.wellFormed : SourceLine → Bool
  | .nop => true
  | .start conv => conv.value.isSome
  | .pix v => (operand v).isSome
  | .endRaster => true
  | .clr => true
  | .pack conv raster => conv.value.isSome && raster.all fun r => (operand r).isSome
  | .abort => true

/-- The expansion of `PACK` (R60 (a)): `START`, one `PIX` a pixel in order, `END`. -/
def packCommands (conv : Imm) (raster : List Imm) : List Instr :=
  .start conv :: (raster.map .pix ++ [.endRaster])

/-- The commands of a source line; `none` where an operand is out of range. -/
def SourceLine.commands : SourceLine → Option (List Instr)
  | .nop => some [.nop]
  | .start conv => conv.value.map fun c => [.start c]
  | .pix v => (operand v).map fun p => [.pix p]
  | .endRaster => some [.endRaster]
  | .clr => some [.clr]
  | .pack conv raster =>
    match conv.value, raster.mapM operand with
    | some c, some rs => some (packCommands c rs)
    | _, _ => none
  | .abort => some [.clr]

/-- The words of a source line (R50, R59). -/
def SourceLine.assemble (l : SourceLine) : Option (List CmdWord) := l.commands.map (·.map encode)

/-- The source's command-line choices (R60): `.png` with transparency black or white, `.svg`. -/
inductive SourceChoice where
  | pngBlack
  | pngWhite
  | svg
  deriving DecidableEq, Repr

/-- The convention a host takes from the source's command-line choice (R60; R75 to R77). -/
def SourceChoice.convention : SourceChoice → Convention
  | .pngBlack => .blackTransparent
  | .pngWhite => .whiteTransparent
  | .svg => .vectorSource

/-- Put commands in front of what the host still has to present, the first one first. -/
def State.presentAll (is : List Instr) (s : State) : State :=
  { s with inputs := is.map (fun i => PortIn.command (encode i)) ++ s.inputs }

/-- A piece of a source line. -/
inductive Token where
  | word (cs : List Char)
  | comma
  | open_
  | close
  deriving DecidableEq, Repr

/-- The token the characters collected so far (last one first) make, if there are any. -/
def endWord (collected : List Char) (rest : List Token) : List Token :=
  if collected = [] then rest else .word collected.reverse :: rest

/-- Split a line into tokens; `;` starts a comment to the end of the line (R59), blanks and
tabs separate (assumption 7). -/
def tokens : List Char → List Char → List Token
  | collected, [] => endWord collected []
  | collected, c :: cs =>
    if c = ';' then endWord collected []
    else if c = ' ' ∨ c = '\t' ∨ c = '\r' then endWord collected (tokens [] cs)
    else if c = ',' then endWord collected (.comma :: tokens [] cs)
    else if c = '[' then endWord collected (.open_ :: tokens [] cs)
    else if c = ']' then endWord collected (.close :: tokens [] cs)
    else tokens (c :: collected) cs

/-- The value of a digit in a base up to 16, capital or small (assumption 7). -/
def digit (base : Nat) (c : Char) : Option Nat :=
  let v := if '0' ≤ c ∧ c ≤ '9' then c.toNat - '0'.toNat
    else if 'a' ≤ c ∧ c ≤ 'f' then c.toNat - 'a'.toNat + 10
    else if 'A' ≤ c ∧ c ≤ 'F' then c.toNat - 'A'.toNat + 10
    else 16
  if v < base then some v else none

/-- The value of a digit string after the digits read so far. -/
def digits (base : Nat) : Nat → List Char → Option Nat
  | n, [] => some n
  | n, c :: cs => (digit base c).bind fun d => digits base (n * base + d) cs

/-- An unsigned integer in decimal or in `0x` hexadecimal (R59); leading zeros are read
(assumption 7). -/
def number : List Char → Option Nat
  | [] => none
  | '0' :: 'x' :: c :: cs => digits 16 0 (c :: cs)
  | c :: cs => digits 10 0 (c :: cs)

/-- A convention's name (R59). -/
def conventionNamed (cs : List Char) : Option Convention :=
  if cs = "identity".toList then some .identity
  else if cs = "black_transparent".toList then some .blackTransparent
  else if cs = "white_transparent".toList then some .whiteTransparent
  else if cs = "vector_source".toList then some .vectorSource
  else none

/-- The operand of `START` (R59), and of `PACK`, which expands to that `START` (R60 (a);
assumption 7). -/
def startOperand (cs : List Char) : Option StartOperand :=
  match conventionNamed cs with
  | some c => some (.named c)
  | none => (number cs).map .number

/-- The rest of a raster list after one of its pixels, up to the closing bracket. -/
def rasterRest : List Token → Option (List Nat)
  | [.close] => some []
  | .comma :: .word cs :: ts => do return (← number cs) :: (← rasterRest ts)
  | _ => none

/-- The raster list of a `PACK` line (R60 (a)). -/
def raster : List Token → Option (List Nat)
  | [.open_, .close] => some []
  | .open_ :: .word cs :: ts => do return (← number cs) :: (← rasterRest ts)
  | _ => none

/-- A source line of one or more tokens (R59, R60). -/
def parseTokens : List Token → Option SourceLine
  | [.word m] =>
    if m = "NOP".toList then some .nop
    else if m = "END".toList then some .endRaster
    else if m = "CLR".toList then some .clr
    else if m = "ABORT".toList then some .abort
    else none
  | [.word m, .word o] =>
    if m = "START".toList then (startOperand o).map .start
    else if m = "PIX".toList then (number o).map .pix
    else none
  | .word m :: .word o :: .comma :: ts =>
    if m = "PACK".toList then do return .pack (← startOperand o) (← raster ts) else none
  | _ => none

/-- Assemble one line of text (R59). DESIGN CHOICE (assumption 7): a line without a command, be it
empty, blank or a comment alone, is accepted and gives no word. R59 says one command per line and
nothing of such a line. -/
def assembleLine (cs : List Char) : Option (List CmdWord) :=
  match tokens [] cs with
  | [] => some []
  | t :: ts => (parseTokens (t :: ts)).bind SourceLine.assemble

/-- Assemble a program, one command per line (R59). -/
def assembleProgram (ls : List (List Char)) : Option (List CmdWord) :=
  (ls.mapM assembleLine).map List.flatten

end Sys2Proof.Machine
end

