-- ==== Sys2Proof/Machine/Reference.lean ====
section
/-!
DEFINITION. Machine/Reference.lean: the reference function `pack` of spec 40_pixel_packer.md R61,
the contract the commands realise (R69). No meaning calls it; statements compare runs with it.
-/

namespace Sys2Proof.Machine

open Sys2Proof

/-- `q(k)`: pixel `k` of the raster, raw index 0 past its end (R61). -/
def rasterPixel (R : List Pair) (k : Nat) : Pair := R.getD k 0#2

/-- `B[i]` (R61): the four mapped pixels of group `i`, the earliest in the low pair (R35). -/
def packByte (R : List Pair) (m : Pair → Pair) (i : Nat) : Byte :=
  inLane (m (rasterPixel R (4 * i))) 0 ||| inLane (m (rasterPixel R (4 * i + 1))) 1
    ||| inLane (m (rasterPixel R (4 * i + 2))) 2 ||| inLane (m (rasterPixel R (4 * i + 3))) 3

/-- `ceil(n/4)`, the number of bytes of a raster of `n` pixels (R39, R61). -/
def packLength (n : Nat) : Nat := (n + 3) / 4

/-- `pack(R, m)` (R61). -/
def pack (R : List Pair) (m : Pair → Pair) : List Byte :=
  (List.range (packLength R.length)).map (packByte R m)

/-- `pack` on unchecked raster elements (R61): it fails with `InvalidPixelValue` if some element is
outside 0..3, and is never a masked value. -/
def packChecked (R : List Imm) (m : Pair → Pair) : Except RpkError (List Byte) :=
  if R.all inRange then .ok (pack (R.map lowPair) m) else .error .invalidPixelValue

end Sys2Proof.Machine
end

