-- ==== Sys2Proof/Safety.lean ====
section
/-!
DEFINITION. Safety.lean: the terms claims use: the invariant of every reachable state (spec
10_state.md R23, R24), how a conversion and a run end (42_control.md R88), and the host that keeps
a conversion's bytes only once it has seen its `Done` (60_exceptions.md R100, 70 R111).
-/

namespace Sys2Proof.Machine

open Sys2Proof

/-- The invariant: the registers meet R23 (a) to (d); `out_data` is zero when `out_valid` is low
(R24); and `done` is high only after an `END`, which leaves phase IDLE (R22, R68). -/
def State.Inv (s : State) : Prop :=
  s.regs.wf = true ∧ (s.lines.outValid = false → s.lines.outData = 0x00#8) ∧
    (s.lines.done = true → s.regs.phase = Phase.idle)

/-- How a conversion ends (R88). -/
inductive ConversionEnd where
  /-- (a) `END`: `Done` was emitted. -/
  | completed
  /-- (b) an error was raised. -/
  | failed
  /-- (c) `CLR` in phase ACTIVE, or reset. -/
  | abandoned
  deriving DecidableEq, Repr

/-- What the step from `s` to `t` does to the conversion in progress in `s`, if any (R88). -/
def conversionEnd (s t : State) : Option ConversionEnd :=
  if s.regs.phase ≠ Phase.active then none
  else if t.lines.done then some .completed
  else if t.regs.phase = Phase.err then some .failed
  else if t.regs.phase = Phase.idle then some .abandoned
  else none

/-- How a run stands when its last command has been executed (R88). -/
inductive RunEnd where
  /-- It ends in phase IDLE. DESIGN CHOICE (assumption 12): R88 says only which ends are not
  successful. -/
  | successful
  /-- It ends in phase ACTIVE. -/
  | unfinished
  /-- It ends in phase ERR. -/
  | failed
  deriving DecidableEq, Repr

/-- The end of a run whose final state is `s`. R88: in phase ACTIVE it is unfinished, in phase ERR
failed. DESIGN CHOICE (assumption 12): every run that ends in phase IDLE is called successful, also
one whose conversion was abandoned, failed and then cleared, or that held none; whether a conversion
completed is `conversionEnd`. -/
def State.runEnd (s : State) : RunEnd :=
  if s.regs.phase = Phase.err then .failed
  else if s.regs.phase = Phase.active then .unfinished
  else .successful

/-- What a host that does its duty keeps (R100, R111). -/
structure HostView where
  /-- The bytes taken since the last `START`, not yet trusted. -/
  provisional : List Byte
  /-- The bytes of each completed conversion, oldest first. -/
  committed : List (List Byte)
  deriving DecidableEq, Repr

/-- The host takes the byte of the step (R108), commits the conversion's bytes on `done`, and
discards them when the block is no longer in phase ACTIVE without `done`: an error, `CLR` or reset
(R100, R111; assumption 8). It reads the ports after the step and nothing else. -/
def HostView.observe (v : HostView) (t : State) : HostView :=
  let bytes := if t.lines.outValid then v.provisional ++ [t.lines.outData] else v.provisional
  if t.lines.done then { provisional := [], committed := v.committed ++ [bytes] }
  else if t.status.extractLsb' 0 2 = Phase.active then { v with provisional := bytes }
  else { v with provisional := [] }

/-- `n` steps with the host looking on. -/
def runObserved : Nat → HostView → State → Option (HostView × State)
  | 0, v, s => some (v, s)
  | n + 1, v, s =>
    match step s with
    | .next t => runObserved n (v.observe t) t
    | .fault _ => none
    | .refused _ => none

end Sys2Proof.Machine
end

