-- ==== Sys2Proof/Certificates/Slice0/Obligations.lean ====
section
/-!
DEFINITION. Certificates/Slice0/Obligations.lean: the statements about the model, from the numbered
rules of spec/. `s.present w` is `s` with the command word `w` as the host's next input, so that
`step (s.present w)` is the step in which RPK takes `w`; `s` itself is any state, with any history
and any further inputs. A premise `s.regs.wf = true` is R23 (a) to (d), to which
`StepKeepsRegisterInvariant` and `ResetMeetsInvariant` belong.
-/

open Sys2Proof Sys2Proof.Machine

/-! ### Reset and the input ports -/

/-- R28: what every register, port and constant of the reset table holds after reset. -/
def Obligations.ResetRegisterValues : Prop :=
  State.reset.regs.phase = 0#2 ∧ State.reset.regs.conv = 0#2 ∧ State.reset.regs.acc = 0x00#8 ∧
    State.reset.regs.fill = 0#2 ∧ State.reset.regs.errCode = 0#3 ∧
    State.reset.status = 0x00#8 ∧ State.reset.err = false ∧
    State.reset.lines.outValid = false ∧ State.reset.lines.done = false ∧
    State.reset.lines.outData = 0x00#8 ∧
    conventionRom = [0#2, 1#2, 2#2, 3#2, 0#2, 1#2, 2#2, 3#2, 3#2, 2#2, 1#2, 0#2, 0#2, 3#2, 2#2, 1#2] ∧
    State.reset.out = []

/-- R104, R105: with `rst = 1` the step is a reset whatever the state and whatever `cmd_valid` and
`cmd` are: every register to its reset value, the ports of R104 at their reset levels, no event;
the state after it is the state after `CLR`. -/
def Obligations.ResetOverridesCommand : Prop :=
  ∀ (s : State) (valid : Bool) (w : CmdWord),
    ∃ t, step { s with inputs := { rst := true, cmdValid := valid, cmd := w } :: s.inputs } = .next t ∧
      exec .clr s = .next t ∧
      t.regs = { phase := 0#2, conv := 0#2, acc := 0x00#8, fill := 0#2, errCode := 0#3 } ∧
      t.lines = { outValid := false, outData := 0x00#8, done := false } ∧
      t.err = false ∧ t.status = 0x00#8 ∧ t.out = s.out ∧ t.inputs = s.inputs

/-- 10_state.md section 7 and 70_reset_and_hazards.md section 1: with `cmd_valid = 0`, and with a
host that has nothing left to present (the model's choice, assumption 2), no register changes, the
pulses are low and nothing is emitted. -/
def Obligations.NoCommandChangesNoRegister : Prop :=
  ∀ (s : State) (w : CmdWord),
    step { s with inputs := { rst := false, cmdValid := false, cmd := w } :: s.inputs } =
      .next { s with lines := { outValid := false, outData := 0x00#8, done := false } } ∧
    (s.inputs = [] →
      step s = .next { s with lines := { outValid := false, outData := 0x00#8, done := false } })

/-- 42_control.md section 3: the step that takes a word which decodes to `i` is `exec i`, with the
word taken from the inputs and nothing else around it. -/
def Obligations.StepRunsDecodedCommand : Prop :=
  ∀ (s : State) (w : CmdWord) (i : Instr),
    decode w = .ok i → step (s.present w) = exec i s

/-! ### Encoding -/

/-- R50: a word is a command exactly when it matches the command's row of the opcode map, its
operand is then the low 8 bits, and a word that matches no row is illegal. -/
def Obligations.DecodeMatchesOpcodeMap : Prop :=
  ∀ (w : CmdWord),
    (decode w = .ok .nop ↔ w &&& 0xFFF#12 = 0x000#12) ∧
    (∀ conv, decode w = .ok (.start conv) ↔ w &&& 0xF00#12 = 0x100#12 ∧ conv = w.setWidth 8) ∧
    (∀ v, decode w = .ok (.pix v) ↔ w &&& 0xF00#12 = 0x200#12 ∧ v = w.setWidth 8) ∧
    (decode w = .ok .endRaster ↔ w &&& 0xFFF#12 = 0x300#12) ∧
    (decode w = .ok .clr ↔ w &&& 0xFFF#12 = 0x400#12) ∧
    ((∃ why, decode w = .error why) ↔
      w &&& 0xFFF#12 ≠ 0x000#12 ∧ w &&& 0xF00#12 ≠ 0x100#12 ∧ w &&& 0xF00#12 ≠ 0x200#12 ∧
        w &&& 0xFFF#12 ≠ 0x300#12 ∧ w &&& 0xFFF#12 ≠ 0x400#12)

/-- R51, R54, R55: `NOP`, `END` and `CLR` are spelled by exactly one word each; and `START` and
`PIX` by the words `0x100 | conv` and `0x200 | v`, one for each operand. -/
def Obligations.EachCommandIsSpelledByItsWord : Prop :=
  ∀ (w : CmdWord),
    (decode w = .ok .nop ↔ w = 0x000#12) ∧ (decode w = .ok .endRaster ↔ w = 0x300#12) ∧
    (decode w = .ok .clr ↔ w = 0x400#12) ∧
    (∀ conv : Imm, decode w = .ok (.start conv) ↔ w = 0x100#12 ||| conv.setWidth 12) ∧
    (∀ v : Imm, decode w = .ok (.pix v) ↔ w = 0x200#12 ||| v.setWidth 12)

/-- R56, R92: the illegal words are exactly the four classes, in the spec's numbers; executed in
phase IDLE or ACTIVE each raises `IllegalCommand` (code 3) and does nothing else, and in phase ERR
it is ignored. -/
def Obligations.IllegalWordsRaiseIllegalCommand : Prop :=
  (∀ w : CmdWord,
    (decode w = .error .reservedOp ↔ 0x500#12 ≤ w) ∧
    (decode w = .error .nopOperand ↔ 0x001#12 ≤ w ∧ w ≤ 0x0FF#12) ∧
    (decode w = .error .endOperand ↔ 0x301#12 ≤ w ∧ w ≤ 0x3FF#12) ∧
    (decode w = .error .clrOperand ↔ 0x401#12 ≤ w ∧ w ≤ 0x4FF#12)) ∧
  ((List.range 4096).countP fun n => (decodeTableWord 12 n).isNone) = 3581 ∧
  ((List.range 4096).countP fun n => (decodeTableWord 12 n).isSome) = 515 ∧
  (∀ (s : State) (w : CmdWord) (why : IllegalWord), s.regs.wf = true → decode w = .error why →
    (s.regs.phase ≠ Phase.err →
      step (s.present w) = .next { s with
        regs := { phase := 2#2, conv := s.regs.conv, acc := 0x00#8, fill := 0#2, errCode := 3#3 }
        lines := { outValid := false, outData := 0x00#8, done := false } }) ∧
    (s.regs.phase = Phase.err →
      step (s.present w) =
        .next { s with lines := { outValid := false, outData := 0x00#8, done := false } }))

/-- 30_encoding.md section 3: decoding the word of a well-formed command gives the command back,
with every operand at every value. -/
def Obligations.DecodeEncodeRoundTrip : Prop :=
  ∀ i : Instr, i.wellFormed = true → decode (encode i) = .ok i

/-- 95_test_vectors.md V-ENC: some of its words, of every family and every illegal class. -/
def Obligations.ListedWordsDecode : Prop :=
  decode 0b000000000000#12 = .ok .nop ∧ decode 0b000100000010#12 = .ok (.start 2#8) ∧
    decode 0b000111111111#12 = .ok (.start 255#8) ∧ decode 0b001000000011#12 = .ok (.pix 3#8) ∧
    decode 0b001000000100#12 = .ok (.pix 4#8) ∧ decode 0b001100000000#12 = .ok .endRaster ∧
    decode 0b010000000000#12 = .ok .clr ∧ decode 0b000000000001#12 = .error .nopOperand ∧
    decode 0b001100000001#12 = .error .endOperand ∧ decode 0b010000000001#12 = .error .clrOperand ∧
    decode 0b010100000000#12 = .error .reservedOp ∧ decode 0b111111111111#12 = .error .reservedOp

/-- R60: the expansion of `PACK` in words, `ABORT`, and the host's three choices. -/
def Obligations.AbbreviationsExpand : Prop :=
  (∀ (conv : Imm) (raster : List Imm),
    (packCommands conv raster).map encode =
      [0x100#12 ||| conv.setWidth 12] ++ raster.map (fun r => 0x200#12 ||| r.setWidth 12) ++ [0x300#12] ∧
    (packCommands conv raster).length = raster.length + 2) ∧
  (∀ (c : Convention) (raster : List Imm),
    (SourceLine.pack (.named c) (raster.map BitVec.toNat)).assemble =
      some ((packCommands (c.code.setWidth 8) raster).map encode)) ∧
  SourceLine.abort.assemble = some [0x400#12] ∧
  SourceChoice.pngBlack.convention.code = 1#2 ∧ SourceChoice.pngWhite.convention.code = 2#2 ∧
    SourceChoice.svg.convention.code = 3#2

/-! ### The mapper -/

/-- R21: the convention ROM, entry by entry, at address `4c + p`. -/
def Obligations.RomHoldsTheFourTables : Prop :=
  ∀ c p : Pair,
    rom c p = ([0#2, 1#2, 2#2, 3#2, 0#2, 1#2, 2#2, 3#2, 3#2, 2#2, 1#2, 0#2, 0#2, 3#2, 2#2, 1#2] : List Pair).getD
      (4 * c.toNat + p.toNat) 0#2

/-- 41_palette_mapper.md sections 2 and 3: every mapping is a bijection and its own inverse; under
`white_transparent` it is `3 - p`. -/
def Obligations.MappingsAreInvolutions : Prop :=
  (∀ c p : Pair, mapIndex c (mapIndex c p) = p) ∧
    (∀ c p q : Pair, mapIndex c p = mapIndex c q → p = q) ∧
    (∀ p : Pair, mapIndex Convention.whiteTransparent.code p = 3#2 - p)

/-- R79: `START`, completely: normal execution, ignored in ERR, `SequenceError` in ACTIVE,
`UnknownConvention` in IDLE for an operand above 3. -/
def Obligations.StartBeginsConversion : Prop :=
  ∀ (s : State) (conv : Imm), s.regs.wf = true →
    (s.regs.phase = Phase.idle → conv ≤ 3#8 →
      exec (.start conv) s = .next { s with
        regs := { phase := 1#2, conv := conv.setWidth 2, acc := 0x00#8, fill := 0#2, errCode := 0#3 }
        lines := { outValid := false, outData := 0x00#8, done := false } }) ∧
    (s.regs.phase = Phase.err →
      exec (.start conv) s =
        .next { s with lines := { outValid := false, outData := 0x00#8, done := false } }) ∧
    (s.regs.phase = Phase.active →
      exec (.start conv) s = .next (raise .sequenceError s)) ∧
    (s.regs.phase = Phase.idle → 3#8 < conv →
      exec (.start conv) s = .next (raise .unknownConvention s))

/-- R44: the convention is the operand of the accepted `START`; from then on, in phase ACTIVE, no
word but `CLR` changes it, and `START` there raises `SequenceError` with `CONV` kept. -/
def Obligations.ConventionIsFixedForTheConversion : Prop :=
  (∀ (s : State) (c : Pair), s.regs.wf = true → s.regs.phase = Phase.idle →
    ∃ t, exec (.start (c.setWidth 8)) s = .next t ∧ t.regs.conv = c ∧
      t.regs.phase = Phase.active) ∧
  (∀ (s : State) (w : CmdWord), s.regs.wf = true → s.regs.phase = Phase.active → w ≠ 0x400#12 →
    ∃ t, step (s.present w) = .next t ∧ t.regs.conv = s.regs.conv) ∧
  (∀ (s : State) (conv : Imm), s.regs.wf = true → s.regs.phase = Phase.active →
    ∃ t, exec (.start conv) s = .next t ∧ t.regs.phase = Phase.err ∧ t.regs.errCode = 4#3 ∧
      t.regs.conv = s.regs.conv)

/-! ### The packer -/

/-- R66: `PIX`, completely: a pixel placed in its lane, a pixel that completes the group, and the
three ways it does neither. -/
def Obligations.PixFeedsOnePixel : Prop :=
  ∀ (s : State) (v : Imm), s.regs.wf = true →
    (s.regs.phase = Phase.active → v ≤ 3#8 → s.regs.fill < 3#2 →
      exec (.pix v) s = .next { s with
        regs := { s.regs with
          acc := s.regs.acc |||
            (rom s.regs.conv (v.setWidth 2)).setWidth 8 <<< (2 * s.regs.fill.toNat)
          fill := s.regs.fill + 1#2 }
        lines := { outValid := false, outData := 0x00#8, done := false } }) ∧
    (s.regs.phase = Phase.active → v ≤ 3#8 → s.regs.fill = 3#2 →
      exec (.pix v) s = .next { s with
        regs := { s.regs with acc := 0x00#8, fill := 0#2 }
        lines := { outValid := true
                   outData := s.regs.acc ||| (rom s.regs.conv (v.setWidth 2)).setWidth 8 <<< 6
                   done := false }
        out := s.out ++
          [.byte (s.regs.acc ||| (rom s.regs.conv (v.setWidth 2)).setWidth 8 <<< 6)] }) ∧
    (s.regs.phase = Phase.err →
      exec (.pix v) s =
        .next { s with lines := { outValid := false, outData := 0x00#8, done := false } }) ∧
    (s.regs.phase = Phase.idle → exec (.pix v) s = .next (raise .sequenceError s)) ∧
    (s.regs.phase = Phase.active → 3#8 < v →
      exec (.pix v) s = .next (raise .invalidPixelValue s))

/-- R63: an accepted pixel puts its mapped index in lane `FILL` of the byte and disturbs no other
lane, whether the byte stays in `ACC` or leaves. -/
def Obligations.PixFillsItsLaneOnly : Prop :=
  ∀ (s : State) (p : Pair), s.regs.wf = true → s.regs.phase = Phase.active →
    ∃ (t : State) (b : Byte), exec (.pix (p.setWidth 8)) s = .next t ∧
      (s.regs.fill < 3#2 → t.regs.acc = b ∧ t.out = s.out) ∧
      (s.regs.fill = 3#2 → t.out = s.out ++ [.byte b]) ∧
      ∀ j : Nat, j < 4 →
        lane j b = if j = s.regs.fill.toNat then mapIndex s.regs.conv p else lane j s.regs.acc

/-- R67: the padding value of each convention, and `pad(k)` as the multiples the rule gives. -/
def Obligations.PadIsTheMappedZeroRepeated : Prop :=
  (∀ z : Pair, pad z 1 = z.setWidth 8 * 0x54#8 ∧ pad z 2 = z.setWidth 8 * 0x50#8 ∧
    pad z 3 = z.setWidth 8 * 0x40#8) ∧
  rom 0#2 0#2 = 0#2 ∧ rom 1#2 0#2 = 0#2 ∧ rom 2#2 0#2 = 3#2 ∧ rom 3#2 0#2 = 0#2 ∧
  (∀ r : Regs, paddedByte r = r.acc ||| pad (rom r.conv 0#2) r.fill.toNat)

/-- R68: `END`, completely: `Done`, after the padded byte of R67 when `FILL` is not zero; ignored
in ERR; `SequenceError` in IDLE. -/
def Obligations.EndPadsAndFinishes : Prop :=
  ∀ s : State, s.regs.wf = true →
    (s.regs.phase = Phase.active → s.regs.fill ≠ 0#2 →
      exec .endRaster s = .next { s with
        regs := { s.regs with phase := 0#2, acc := 0x00#8, fill := 0#2 }
        lines := { outValid := true
                   outData := s.regs.acc ||| pad (rom s.regs.conv 0#2) s.regs.fill.toNat
                   done := true }
        out := s.out ++
          [.byte (s.regs.acc ||| pad (rom s.regs.conv 0#2) s.regs.fill.toNat), .done] }) ∧
    (s.regs.phase = Phase.active → s.regs.fill = 0#2 →
      exec .endRaster s = .next { s with
        regs := { s.regs with phase := 0#2, acc := 0x00#8, fill := 0#2 }
        lines := { outValid := false, outData := 0x00#8, done := true }
        out := s.out ++ [.done] }) ∧
    (s.regs.phase = Phase.err →
      exec .endRaster s =
        .next { s with lines := { outValid := false, outData := 0x00#8, done := false } }) ∧
    (s.regs.phase = Phase.idle → exec .endRaster s = .next (raise .sequenceError s))

/-- R38: the byte `END` emits keeps the received lanes and holds the mapped raw index 0 in every
missing lane (0b11 under `white_transparent`); `END` with `FILL = 0` emits no byte; and no other
word makes RPK pad: a byte emitted in another step came from a `PIX` that filled lane 3. -/
def Obligations.EndPadsMissingLanesWithMappedZero : Prop :=
  (∀ s : State, s.regs.wf = true → s.regs.phase = Phase.active → s.regs.fill ≠ 0#2 →
    ∃ (t : State) (b : Byte), exec .endRaster s = .next t ∧ t.out = s.out ++ [.byte b, .done] ∧
      ∀ j : Nat, j < 4 →
        lane j b = if j < s.regs.fill.toNat then lane j s.regs.acc else mapIndex s.regs.conv 0#2) ∧
  (∀ s : State, s.regs.wf = true → s.regs.phase = Phase.active → s.regs.fill = 0#2 →
    ∃ t : State, exec .endRaster s = .next t ∧ t.out = s.out ++ [.done]) ∧
  (∀ (s t : State) (w : CmdWord) (b : Byte), step (s.present w) = .next t →
    decode w ≠ .ok .endRaster → .byte b ∈ t.out.drop s.out.length →
    s.regs.fill = 3#2 ∧ ∃ v : Imm, v ≤ 3#8 ∧ decode w = .ok (.pix v)) ∧
  mapIndex Convention.whiteTransparent.code 0#2 = 0b11#2

/-! ### Control -/

/-- R83: `NOP` is the word `0x000`; in every state it writes no register and emits nothing. -/
def Obligations.NopWritesNoRegister : Prop :=
  decode 0x000#12 = .ok .nop ∧
  (∀ s : State, exec .nop s =
    .next { s with lines := { outValid := false, outData := 0x00#8, done := false } }) ∧
  (∀ s t : State, exec .nop s = .next t → t.status = s.status)

/-- 42_control.md section 1, which the spec marks as derived: a `NOP` inserted anywhere among the
host's commands, or removed, changes neither `OUT` nor the registers at the end. -/
def Obligations.NopInsertionIsInvisible : Prop :=
  ∀ (s : State) (before after : List CmdWord) (r : Regs) (o : List Event),
    (∃ t, runSteps (before.length + after.length)
        { s with inputs := (before ++ after).map PortIn.command } = .next t ∧
      t.regs = r ∧ t.out = o) ↔
    (∃ t, runSteps (before.length + 1 + after.length)
        { s with inputs := (before ++ [0x000#12] ++ after).map PortIn.command } = .next t ∧
      t.regs = r ∧ t.out = o)

/-- R84: `CLR` gives the reset values of all five registers from every state, emits nothing and
leaves `OUT`; a would-be `CLR` with a nonzero operand is an illegal word. -/
def Obligations.ClrRestoresResetRegisters : Prop :=
  decode 0x400#12 = .ok .clr ∧
  (∀ imm : Imm, imm ≠ 0#8 → decode (0x400#12 ||| imm.setWidth 12) = .error .clrOperand) ∧
  (∀ s : State, exec .clr s = .next { s with
    regs := { phase := 0#2, conv := 0#2, acc := 0x00#8, fill := 0#2, errCode := 0#3 }
    lines := { outValid := false, outData := 0x00#8, done := false } }) ∧
  (∀ s t : State, exec .clr s = .next t → t.err = false ∧ t.status = 0x00#8)

/-- R85, R95: the order of the tests of one step, and that a step has exactly one outcome, a next
state with one of the four lists of events. -/
def Obligations.StepTestsInOrder : Prop :=
  ∀ (s : State) (w : CmdWord), s.regs.wf = true →
    (decode w = .ok .clr → step (s.present w) = exec .clr s) ∧
    (decode w ≠ .ok .clr → s.regs.phase = Phase.err →
      step (s.present w) =
        .next { s with lines := { outValid := false, outData := 0x00#8, done := false } }) ∧
    (s.regs.phase ≠ Phase.err →
      (∀ why, decode w = .error why → step (s.present w) = .next (raise .illegalCommand s)) ∧
      (decode w = .ok .nop →
        step (s.present w) =
          .next { s with lines := { outValid := false, outData := 0x00#8, done := false } }) ∧
      (∀ conv, decode w = .ok (.start conv) →
        step (s.present w) =
          if s.regs.phase = Phase.active then .next (raise .sequenceError s)
          else if 3#8 < conv then .next (raise .unknownConvention s)
          else exec (.start conv) s) ∧
      (∀ v, decode w = .ok (.pix v) →
        step (s.present w) =
          if s.regs.phase = Phase.idle then .next (raise .sequenceError s)
          else if 3#8 < v then .next (raise .invalidPixelValue s)
          else exec (.pix v) s) ∧
      (decode w = .ok .endRaster →
        step (s.present w) =
          if s.regs.phase = Phase.idle then .next (raise .sequenceError s)
          else exec .endRaster s)) ∧
    (∃ (t : State) (evs : List Event), step (s.present w) = .next t ∧ t.out = s.out ++ evs ∧
      (evs = [] ∨ (∃ b, evs = [.byte b]) ∨ evs = [.done] ∨ ∃ b, evs = [.byte b, .done]))

/-- 42_control.md section 4, the phase table, which the spec marks as derived from its step
function. -/
def Obligations.PhaseTable : Prop :=
  ∀ (s : State) (w : CmdWord), s.regs.wf = true →
    ∃ t, step (s.present w) = .next t ∧
      t.regs.phase =
        match decode w with
        | .ok .clr => Phase.idle
        | .ok .nop => s.regs.phase
        | .ok (.start conv) =>
          if s.regs.phase = Phase.idle ∧ conv ≤ 3#8 then Phase.active else Phase.err
        | .ok (.pix v) =>
          if s.regs.phase = Phase.active ∧ v ≤ 3#8 then Phase.active else Phase.err
        | .ok .endRaster => if s.regs.phase = Phase.active then Phase.idle else Phase.err
        | .error _ => Phase.err

/-- R72: the next registers, the lines and the emitted events are functions of the registers and
the command word alone: not of the history, the lines before, or what the host presents later. -/
def Obligations.StepDependsOnRegistersAndWordOnly : Prop :=
  ∀ (s s' t : State) (w : CmdWord), s.regs = s'.regs → step (s.present w) = .next t →
    ∃ (t' : State) (evs : List Event), step (s'.present w) = .next t' ∧
      t'.regs = t.regs ∧ t'.lines = t.lines ∧ t.out = s.out ++ evs ∧ t'.out = s'.out ++ evs

/-- 42_control.md section 5: how the step that takes a word ends the conversion in progress. -/
def Obligations.ConversionEndsByEndErrorOrClr : Prop :=
  ∀ (s : State) (w : CmdWord), s.regs.wf = true → s.regs.phase = Phase.active →
    ∃ t, step (s.present w) = .next t ∧
      (conversionEnd s t = some .completed ↔ decode w = .ok .endRaster) ∧
      (conversionEnd s t = some .failed ↔
        (∃ why, decode w = .error why) ∨ (∃ conv, decode w = .ok (.start conv)) ∨
          ∃ v : Imm, 3#8 < v ∧ decode w = .ok (.pix v)) ∧
      (conversionEnd s t = some .abandoned ↔ decode w = .ok .clr) ∧
      (conversionEnd s t = none ↔
        decode w = .ok .nop ∨ ∃ v : Imm, v ≤ 3#8 ∧ decode w = .ok (.pix v))

/-! ### Errors -/

/-- R94: error entry, for every error from every state. -/
def Obligations.RaiseEntersErrorPhase : Prop :=
  ∀ (e : RpkError) (s : State),
    raise e s = { s with
      regs := { phase := 2#2, conv := s.regs.conv, acc := 0x00#8, fill := 0#2, errCode := e.code }
      lines := { outValid := false, outData := 0x00#8, done := false } } ∧
    (raise e s).err = true ∧ (raise e s).status = (e.code.setWidth 8 <<< 4) ||| 2#8 ∧
    (raise e s).status ∈ ([0x12#8, 0x22#8, 0x32#8, 0x42#8] : List Byte)

/-- R89: which word in which phase raises which error, with its code; no word raises any other, and
in phase ERR none is raised: the code stays, or `CLR` clears it. -/
def Obligations.ErrorCauses : Prop :=
  (∀ (s : State) (w : CmdWord), s.regs.wf = true → s.regs.phase ≠ Phase.err →
    ∃ t, step (s.present w) = .next t ∧
      (t.regs.phase = Phase.err ↔ t.regs.errCode ≠ 0#3) ∧ t.regs.errCode ≤ 4#3 ∧
      (t.regs.errCode = 1#3 ↔
        s.regs.phase = Phase.active ∧ ∃ v : Imm, 3#8 < v ∧ decode w = .ok (.pix v)) ∧
      (t.regs.errCode = 2#3 ↔
        s.regs.phase = Phase.idle ∧ ∃ conv : Imm, 3#8 < conv ∧ decode w = .ok (.start conv)) ∧
      (t.regs.errCode = 3#3 ↔ ∃ why, decode w = .error why) ∧
      (t.regs.errCode = 4#3 ↔
        (s.regs.phase = Phase.active ∧ ∃ conv, decode w = .ok (.start conv)) ∨
        (s.regs.phase = Phase.idle ∧
          ((∃ v, decode w = .ok (.pix v)) ∨ decode w = .ok .endRaster)))) ∧
  (∀ (s : State) (w : CmdWord), s.regs.wf = true → s.regs.phase = Phase.err →
    ∃ t, step (s.present w) = .next t ∧
      t.regs.errCode = if decode w = .ok .clr then 0#3 else s.regs.errCode)

/-- R96: in phase ERR every word but `CLR` is ignored: no register is written, nothing is emitted. -/
def Obligations.ErrorPhaseIgnoresAllButClr : Prop :=
  ∀ (s : State) (w : CmdWord), s.regs.wf = true → s.regs.phase = Phase.err → w ≠ 0x400#12 →
    step (s.present w) =
      .next { s with lines := { outValid := false, outData := 0x00#8, done := false } }

/-- R97: phase ERR is left only by `CLR` or by reset, and both give the reset registers. -/
def Obligations.ErrorPhaseIsLeftOnlyByClrOrReset : Prop :=
  (∀ s t : State, s.regs.wf = true → s.regs.phase = Phase.err → step s = .next t →
    t.regs.phase ≠ Phase.err →
    t.regs = State.reset.regs ∧
      ∃ (p : PortIn) (rest : List PortIn), s.inputs = p :: rest ∧
        (p.rst = true ∨ p.cmdValid = true ∧ p.cmd = 0x400#12)) ∧
  (∀ s : State, ∃ t, step (s.present 0x400#12) = .next t ∧ t.regs = State.reset.regs) ∧
  (∀ s : State, ∃ t, step { s with inputs := PortIn.reset :: s.inputs } = .next t ∧
    t.regs = State.reset.regs)

/-- R99: bytes already emitted stand: an error after `k` accepted pixels leaves in `OUT` the first
`floor(k/4)` bytes of the reference function, whatever word raised it. -/
def Obligations.ErrorKeepsBytesAlreadyEmitted : Prop :=
  ∀ (s : State) (c : Pair) (R : List Pair) (w : CmdWord),
    s.regs.wf = true → s.regs.phase = Phase.idle →
    ((∃ why, decode w = .error why) ∨ (∃ conv, decode w = .ok (.start conv)) ∨
      ∃ v : Imm, 3#8 < v ∧ decode w = .ok (.pix v)) →
    ∃ t, runSteps (R.length + 2) ((s.present w).presentAll
        (.start (c.setWidth 8) :: R.map fun p => .pix (p.setWidth 8))) = .next t ∧
      t.regs.phase = Phase.err ∧ t.regs.errCode ≠ 0#3 ∧
      t.out = s.out ++ ((pack R (mapIndex c)).take (R.length / 4)).map Event.byte

/-! ### Status and lines -/

/-- R20: the fields of `STATUS`, bit 7, and their legal values. -/
def Obligations.StatusFields : Prop :=
  (∀ s : State, s.status.extractLsb' 0 2 = s.regs.phase ∧
    s.status.extractLsb' 2 2 = s.regs.fill ∧ s.status.extractLsb' 4 3 = s.regs.errCode ∧
    s.status.getLsbD 7 = false) ∧
  (∀ s : State, s.regs.wf = true →
    s.status.extractLsb' 0 2 ≠ 3#2 ∧
    (s.status.extractLsb' 0 2 ≠ Phase.active → s.status.extractLsb' 2 2 = 0#2) ∧
    s.status.extractLsb' 4 3 ≤ 4#3 ∧
    (s.status.extractLsb' 4 3 ≠ 0#3 ↔ s.status.extractLsb' 0 2 = Phase.err))

/-- 10_state.md section 3: the nine values `STATUS` takes, which the spec marks as derived. -/
def Obligations.StatusTakesNineValues : Prop :=
  ∀ s : State, s.regs.wf = true →
    s.status ∈ ([0x00#8, 0x01#8, 0x05#8, 0x09#8, 0x0D#8, 0x12#8, 0x22#8, 0x32#8, 0x42#8] : List Byte)

/-- R22: what sets `out_valid`, `done` and `err`, and that nothing else does, reset included. -/
def Obligations.PulsesAreSetByTheirCausesOnly : Prop :=
  (∀ (s : State) (w : CmdWord), s.regs.wf = true →
    ∃ t, step (s.present w) = .next t ∧
      (t.lines.outValid = true ↔ s.regs.phase = Phase.active ∧
        ((s.regs.fill = 3#2 ∧ ∃ v : Imm, v ≤ 3#8 ∧ decode w = .ok (.pix v)) ∨
          (s.regs.fill ≠ 0#2 ∧ decode w = .ok .endRaster))) ∧
      (t.lines.done = true ↔ s.regs.phase = Phase.active ∧ decode w = .ok .endRaster) ∧
      (t.err = true ↔ t.regs.phase = 2#2)) ∧
  (∀ (s : State) (p : PortIn), p.rst = true ∨ p.cmdValid = false →
    ∃ t, step { s with inputs := p :: s.inputs } = .next t ∧
      t.lines.outValid = false ∧ t.lines.done = false) ∧
  (∀ (e : RpkError) (s : State), (raise e s).err = true)

/-! ### Invariants and frames -/

/-- 10_state.md section 6: the reset state meets the invariant. -/
def Obligations.ResetMeetsInvariant : Prop := State.reset.Inv

/-- 10_state.md section 6 (the spec marks R23 as derived): every step of every input keeps the
invariant: legal phase, empty lanes from `FILL` on, nothing in `ACC` and `FILL` outside ACTIVE,
`ERRCODE` nonzero exactly in ERR; `out_data` zero without `out_valid`, `done` only into IDLE. -/
def Obligations.StepKeepsRegisterInvariant : Prop :=
  ∀ s t : State, s.Inv → step s = .next t → t.Inv

/-- 70_reset_and_hazards.md section 4: no state that meets the register invariant is stuck, for
any input; and from any state at all `CLR` reaches IDLE in one step. -/
def Obligations.NoStepIsStuck : Prop :=
  (∀ s : State, s.regs.wf = true → ∃ t, step s = .next t) ∧
  (∀ s : State, ∃ t, step (s.present 0x400#12) = .next t ∧ t.regs.phase = Phase.idle)

/-- 10_state.md section 6 and 92_eei_decisions.md D28 (assumption 4 is the model's reading): in a
register state that breaks R23, `START`, `PIX`, `END` and illegal words are refused by name. -/
def Obligations.BrokenRegistersAreRefused : Prop :=
  ∀ (s : State), s.regs.wf = false →
    (∀ conv, exec (.start conv) s = .refused .unreachableState) ∧
    (∀ v, exec (.pix v) s = .refused .unreachableState) ∧
    exec .endRaster s = .refused .unreachableState ∧
    (∀ (w : CmdWord) (why : IllegalWord), decode w = .error why →
      step (s.present w) = .refused .unreachableState)

/-- 10_state.md section 11, the access matrix, which the spec marks as derived: what each command
may write and emit; everything else, the inputs included, is unchanged. -/
def Obligations.AccessMatrix : Prop :=
  ∀ s t : State,
    (exec .nop s = .next t → t.regs = s.regs ∧ t.out = s.out ∧ t.inputs = s.inputs) ∧
    (∀ conv, exec (.start conv) s = .next t →
      t.out = s.out ∧ t.inputs = s.inputs ∧
      (t.regs.conv = s.regs.conv ∨ t.regs.phase = Phase.active ∧ t.regs.conv = conv.setWidth 2) ∧
      (t.regs.errCode = s.regs.errCode ∨ t.regs.phase = Phase.err)) ∧
    (∀ v, exec (.pix v) s = .next t →
      t.regs.conv = s.regs.conv ∧ t.inputs = s.inputs ∧
      (t.regs.phase = s.regs.phase ∧ t.regs.errCode = s.regs.errCode ∨
        t.regs.phase = Phase.err) ∧
      (t.out = s.out ∨ s.regs.fill = 3#2 ∧ ∃ b, t.out = s.out ++ [.byte b])) ∧
    (exec .endRaster s = .next t →
      t.regs.conv = s.regs.conv ∧ t.inputs = s.inputs ∧
      (t.regs.errCode = s.regs.errCode ∨ t.regs.phase = Phase.err) ∧
      (t.out = s.out ∨ s.regs.fill = 0#2 ∧ t.out = s.out ++ [.done] ∨
        s.regs.fill ≠ 0#2 ∧ ∃ b, t.out = s.out ++ [.byte b, .done])) ∧
    (exec .clr s = .next t → t.out = s.out ∧ t.inputs = s.inputs) ∧
    (∀ w why, decode w = .error why → step (s.present w) = .next t →
      t.regs.conv = s.regs.conv ∧ t.out = s.out ∧ t.inputs = s.inputs)

/-! ### Conversions -/

/-- 40_pixel_packer.md section 5, the adequacy law, which the spec marks as derived: from phase
IDLE, with any history and any convention left in `CONV`, the commands of a raster emit exactly the
reference function's bytes and `Done`, and raise no error. -/
def Obligations.ConversionEmitsPackThenDone : Prop :=
  ∀ (s : State) (c : Pair) (R : List Pair), s.regs.wf = true → s.regs.phase = Phase.idle →
    ∃ t, runSteps (R.length + 2)
        (s.presentAll (packCommands (c.setWidth 8) (R.map (·.setWidth 8)))) = .next t ∧
      t.regs = { phase := 0#2, conv := c, acc := 0x00#8, fill := 0#2, errCode := 0#3 } ∧
      t.out = s.out ++ (pack R (mapIndex c)).map Event.byte ++ [.done] ∧
      t.lines.done = true ∧ t.inputs = s.inputs

/-- 40_pixel_packer.md section 1: on raster elements of any value, the commands complete exactly
where the reference function has a value, with that value; where it fails with `InvalidPixelValue`
they end in phase ERR with that code and emit no `Done`. -/
def Obligations.ConversionFailsExactlyWherePackFails : Prop :=
  ∀ (s : State) (c : Pair) (R : List Imm), s.regs.wf = true → s.regs.phase = Phase.idle →
    ∃ t, runSteps (R.length + 2) (s.presentAll (packCommands (c.setWidth 8) R)) = .next t ∧
      (∀ bs, packChecked R (mapIndex c) = .ok bs →
        t.regs.phase = Phase.idle ∧ t.out = s.out ++ bs.map Event.byte ++ [.done]) ∧
      (∀ e, packChecked R (mapIndex c) = .error e →
        e = .invalidPixelValue ∧ t.regs.phase = Phase.err ∧ t.regs.errCode = 1#3 ∧
          .done ∉ t.out.drop s.out.length) ∧
      ((∃ bs, packChecked R (mapIndex c) = .ok bs) ↔ R.all (fun v => decide (v ≤ 3#8)) = true)

/-- 40_pixel_packer.md section 5, the streaming law, which the spec marks as derived: after `k`
accepted pixels exactly the first `floor(k/4)` bytes are out, the same for every raster that
begins with those pixels. -/
def Obligations.BytesStreamInOrder : Prop :=
  ∀ (s : State) (c : Pair) (R rest : List Pair),
    s.regs.wf = true → s.regs.phase = Phase.idle →
    ∃ t, runSteps (R.length + 1) (s.presentAll
        (.start (c.setWidth 8) :: R.map fun p => .pix (p.setWidth 8))) = .next t ∧
      t.regs.phase = Phase.active ∧ t.regs.conv = c ∧ t.regs.fill.toNat = R.length % 4 ∧
      t.out = s.out ++ ((pack (R ++ rest) (mapIndex c)).take (R.length / 4)).map Event.byte

/-- R39: a conversion of `n` pixels emits exactly `ceil(n/4)` bytes, then one `Done`, under every
convention. -/
def Obligations.ConversionEmitsCeilQuarterBytes : Prop :=
  ∀ (s : State) (c : Pair) (R : List Pair), s.regs.wf = true → s.regs.phase = Phase.idle →
    ∃ (t : State) (bs : List Byte), runSteps (R.length + 2)
        (s.presentAll (packCommands (c.setWidth 8) (R.map (·.setWidth 8)))) = .next t ∧
      t.out = s.out ++ bs.map Event.byte ++ [.done] ∧
      4 * bs.length < R.length + 4 ∧ R.length ≤ 4 * bs.length

/-- R46: byte `i` of a conversion depends on the convention and on pixels `4i..4i+3` (raw 0 for
those past the end), and on nothing else: not on the rest of the raster, not on what came before. -/
def Obligations.EachByteIsLocal : Prop :=
  ∀ (s s' : State) (c : Pair) (R R' : List Pair) (i : Nat),
    s.regs.wf = true → s.regs.phase = Phase.idle →
    s'.regs.wf = true → s'.regs.phase = Phase.idle →
    4 * i < R.length → 4 * i < R'.length →
    (∀ j : Nat, j < 4 → R.getD (4 * i + j) 0#2 = R'.getD (4 * i + j) 0#2) →
    ∃ (t t' : State) (b : Byte),
      runSteps (R.length + 2)
        (s.presentAll (packCommands (c.setWidth 8) (R.map (·.setWidth 8)))) = .next t ∧
      runSteps (R'.length + 2)
        (s'.presentAll (packCommands (c.setWidth 8) (R'.map (·.setWidth 8)))) = .next t' ∧
      t.out[s.out.length + i]? = some (.byte b) ∧ t'.out[s'.out.length + i]? = some (.byte b)

/-- R75: `black_transparent` has code 1 and the identity table, and for every raster it leaves
exactly what `identity` leaves but for the value in `CONV`. -/
def Obligations.BlackTransparentPacksAsIdentity : Prop :=
  Convention.blackTransparent.code = 1#2 ∧
  (∀ p : Pair, mapIndex 1#2 p = p ∧ mapIndex 1#2 p = mapIndex 0#2 p) ∧
  (∀ (s : State) (R : List Pair), s.regs.wf = true → s.regs.phase = Phase.idle →
    ∃ t, runSteps (R.length + 2)
        (s.presentAll (packCommands 0#8 (R.map (·.setWidth 8)))) = .next t ∧
      t.regs.conv = 0#2 ∧
      runSteps (R.length + 2)
        (s.presentAll (packCommands 1#8 (R.map (·.setWidth 8)))) =
        .next { t with regs := { t.regs with conv := 1#2 } })

/-- 60_exceptions.md section 5 (the host and what it keeps are the model's reading, assumption 8):
a host that trusts bytes only after `Done` keeps exactly the reference function's bytes of a
completed conversion, and nothing of a failed one. -/
def Obligations.HostKeepsExactlyCompletedConversions : Prop :=
  ∀ (s : State) (c : Pair) (R : List Pair) (kept : List (List Byte)),
    s.regs.wf = true → s.regs.phase = Phase.idle →
    (∃ t, runObserved (R.length + 2) { provisional := [], committed := kept }
        (s.presentAll (packCommands (c.setWidth 8) (R.map (·.setWidth 8)))) =
      some ({ provisional := [], committed := kept ++ [pack R (mapIndex c)] }, t)) ∧
    (∀ w : CmdWord,
      (∃ why, decode w = .error why) ∨ (∃ conv, decode w = .ok (.start conv)) ∨
        (∃ v : Imm, 3#8 < v ∧ decode w = .ok (.pix v)) ∨ decode w = .ok .clr →
      ∃ t, runObserved (R.length + 2) { provisional := [], committed := kept }
          ((s.present w).presentAll
            (.start (c.setWidth 8) :: R.map fun p => .pix (p.setWidth 8))) =
        some ({ provisional := [], committed := kept }, t))
end

