-- ==== Sys2Proof/Laws/PerInstr.lean ====
section
/-!
SUPPORT. Laws/PerInstr.lean: statements made once per command. Family EncodeFields: the two fields
of a command's word are its `op` number and its operand (spec 30_encoding.md R47 to R49).
-/

namespace Sys2Proof.Laws.EncodeFields

open Sys2Proof

/-- The fields of the encoded word. -/
def Statement (i : Instr) : Prop := opField (encode i) = i.op ∧ immField (encode i) = i.imm

theorem fields_of_word (op : BitVec 4) (imm : Imm) :
    opField (op.setWidth 12 <<< 8 ||| imm.setWidth 12) = op ∧
      immField (op.setWidth 12 <<< 8 ||| imm.setWidth 12) = imm := by
  constructor
  · apply BitVec.eq_of_getLsbD_eq
    intro k hk
    simp [opField, hk, show 8 + k < 12 by omega]
  · apply BitVec.eq_of_getLsbD_eq
    intro k hk
    simp [immField, hk, show k < 12 by omega]

theorem nop : Statement .nop := fields_of_word _ _
theorem start (conv : Imm) : Statement (.start conv) := fields_of_word _ _
theorem pix (v : Imm) : Statement (.pix v) := fields_of_word _ _
theorem endRaster : Statement .endRaster := fields_of_word _ _
theorem clr : Statement .clr := fields_of_word _ _

end Sys2Proof.Laws.EncodeFields
end

