-- ==== Sys2Proof/Laws/Decode.lean ====
section
/-!
SUPPORT. Laws/Decode.lean: once, everything the decoder can answer (spec 30_encoding.md R50, R56).
-/

namespace Sys2Proof

/-- Each of the 4096 words decodes in exactly the way its bits say. -/
theorem decode_cases : ∀ w : CmdWord,
    (decode w = .ok .nop ∧ w = 0x000#12) ∨
    (decode w = .ok (.start (immField w)) ∧ w &&& 0xF00#12 = 0x100#12) ∨
    (decode w = .ok (.pix (immField w)) ∧ w &&& 0xF00#12 = 0x200#12) ∨
    (decode w = .ok .endRaster ∧ w = 0x300#12) ∨
    (decode w = .ok .clr ∧ w = 0x400#12) ∨
    (decode w = .error .reservedOp ∧ 0x500#12 ≤ w) ∨
    (decode w = .error .nopOperand ∧ w ≤ 0x0FF#12 ∧ w ≠ 0x000#12) ∨
    (decode w = .error .endOperand ∧ w &&& 0xF00#12 = 0x300#12 ∧ w ≠ 0x300#12) ∨
    (decode w = .error .clrOperand ∧ w &&& 0xF00#12 = 0x400#12 ∧ w ≠ 0x400#12) := by
  decide +kernel

/-- Only `0x400` decodes as `CLR`. -/
theorem decode_ne_clr : ∀ w : CmdWord, w ≠ 0x400#12 → decode w ≠ .ok .clr := by
  decide +kernel

end Sys2Proof
end

