-- ==== Sys2Proof/Laws/Lanes.lean ====
section
/-!
SUPPORT. Laws/Lanes.lean: the lanes of a byte, the range check, and the register invariants as
facts about lanes.
-/

namespace Sys2Proof.Machine

open Sys2Proof

theorem inRange_iff (imm : Imm) : inRange imm = true ↔ imm ≤ 3#8 := by simp [inRange]

theorem inRange_eq_false_iff (imm : Imm) : inRange imm = false ↔ 3#8 < imm := by
  simp [inRange, BitVec.not_le]

@[simp] theorem inRange_setWidth : ∀ p : Pair, inRange (p.setWidth 8) = true := by decide

@[simp] theorem lowPair_setWidth : ∀ p : Pair, lowPair (p.setWidth 8) = p := by decide

/-- `imm[1:0]` is the operand cut to 2 bits. -/
theorem lowPair_eq_setWidth (imm : Imm) : lowPair imm = imm.setWidth 2 := by
  apply BitVec.eq_of_getLsbD_eq
  intro k hk
  simp [lowPair, hk]

/-- `FILL` holds 0..3: below 3 or 3. -/
theorem fill_lt_or_eq : ∀ f : BitVec 2, f < 3#2 ∨ f = 3#2 := by decide

/-- Placing an index in a lane fills that lane. -/
theorem lane_inLane_self : ∀ (m : Pair) (j : Fin 4), lane j (inLane m j) = m := by decide

/-- Placing an index in a lane leaves the other lanes zero. -/
theorem lane_inLane_ne :
    ∀ (m : Pair) (j k : Fin 4), j ≠ k → lane j (inLane m k) = 0#2 := by decide

/-- Lanes do not interact under OR (R63). -/
theorem lane_or (j : Nat) (a b : Byte) : lane j (a ||| b) = lane j a ||| lane j b := by
  simp [lane, BitVec.extractLsb'_or]

/-- The padding fills exactly the lanes from `k` on (R67). -/
theorem lane_pad :
    ∀ (z : Pair) (k j : Fin 4), lane j (pad z k) = if k ≤ j then z else 0#2 := by decide

theorem wf_phase {r : Regs} (h : r.wf = true) :
    r.phase = Phase.idle ∨ r.phase = Phase.active ∨ r.phase = Phase.err := by
  have h3 : r.phase ≠ 3#2 := by
    simp only [Regs.wf, Regs.phaseLegal, Bool.and_eq_true, bne_iff_ne] at h
    exact h.1.1.1
  revert h3
  generalize r.phase = p
  revert p
  decide

/-- R23 (b) as a fact about one lane. -/
theorem wf_lane {r : Regs} (h : r.wf = true) (j : Fin 4) (hj : r.fill.toNat ≤ j) :
    lane j r.acc = 0#2 := by
  simp only [Regs.wf, Regs.lanesClear, Bool.and_eq_true, List.all_eq_true] at h
  have := h.1.1.2 j (by simp [Config.group])
  simp only [Bool.or_eq_true, decide_eq_true_eq, beq_iff_eq] at this
  exact this.resolve_left (Nat.not_lt.mpr hj)

/-- R23 (c). -/
theorem wf_empty {r : Regs} (h : r.wf = true) (hp : r.phase ≠ Phase.active) :
    r.acc = 0x00#8 ∧ r.fill = 0#2 := by
  simp only [Regs.wf, Regs.emptyOutsideActive, Bool.and_eq_true, Bool.or_eq_true, beq_iff_eq] at h
  exact h.1.2.resolve_left hp

/-- R23 (d), first half. -/
theorem wf_errCode {r : Regs} (h : r.wf = true) : r.errCode ≠ 0#3 ↔ r.phase = Phase.err := by
  simp only [Regs.wf, Regs.errCodeLegal, Bool.and_eq_true, beq_iff_eq] at h
  have hd := h.2.1
  rw [Bool.eq_iff_iff] at hd
  simpa using hd

/-- R23 (d), second half. -/
theorem wf_errCode_le {r : Regs} (h : r.wf = true) : r.errCode ≤ 4#3 := by
  simp only [Regs.wf, Regs.errCodeLegal, Bool.and_eq_true, decide_eq_true_eq] at h
  exact h.2.2

/-- R23 (a) to (d) make a register state well formed. -/
theorem wf_of_parts {r : Regs} (ha : r.phase ≠ 3#2)
    (hb : ∀ j < 4, r.fill.toNat ≤ j → lane j r.acc = 0#2)
    (hc : r.phase ≠ Phase.active → r.acc = 0x00#8 ∧ r.fill = 0#2)
    (hd : r.errCode ≠ 0#3 ↔ r.phase = Phase.err) (he : r.errCode ≤ 4#3) : r.wf = true := by
  simp only [Regs.wf, Regs.phaseLegal, Regs.lanesClear, Regs.emptyOutsideActive,
    Regs.errCodeLegal, Bool.and_eq_true]
  refine ⟨⟨⟨by simpa using ha, ?_⟩, ?_⟩, ?_, by simpa using he⟩
  · simp only [List.all_eq_true, List.mem_range, Config.group, Bool.or_eq_true,
      decide_eq_true_eq, beq_iff_eq]
    intro j hj
    by_cases h : j < r.fill.toNat
    · exact .inl h
    · exact .inr (hb j hj (Nat.not_lt.mp h))
  · by_cases h : r.phase = Phase.active
    · simp [h]
    · simp [hc h]
  · rw [beq_iff_eq, Bool.eq_iff_iff]
    simpa using hd

@[simp] theorem lane_zero (j : Nat) : lane j 0x00#8 = 0#2 := by simp [lane]

/-- Placing an index in the lane at `FILL` disturbs no other lane (R66, corner cases). -/
theorem lane_or_inLane {r : Regs} (h : r.wf = true) (m : Pair) (j : Nat) (hj : j < 4) :
    lane j (r.acc ||| inLane m r.fill.toNat) = if j = r.fill.toNat then m else lane j r.acc := by
  have hf : r.fill.toNat < 4 := r.fill.isLt
  rw [lane_or]
  split
  · next he =>
    subst he
    rw [wf_lane h ⟨r.fill.toNat, hf⟩ (Nat.le_refl _), lane_inLane_self m ⟨r.fill.toNat, hf⟩]
    exact BitVec.zero_or
  · next hne =>
    rw [lane_inLane_ne m ⟨j, hj⟩ ⟨r.fill.toNat, hf⟩ (fun he => hne (congrArg Fin.val he))]
    exact BitVec.or_zero

/-- The lanes of the padded byte (R67). -/
theorem lane_or_pad {r : Regs} (h : r.wf = true) (z : Pair) (j : Nat) (hj : j < 4) :
    lane j (r.acc ||| pad z r.fill.toNat) = if j < r.fill.toNat then lane j r.acc else z := by
  have hf : r.fill.toNat < 4 := r.fill.isLt
  rw [lane_or, lane_pad z ⟨r.fill.toNat, hf⟩ ⟨j, hj⟩]
  simp only [Fin.mk_le_mk]
  split
  · next hle =>
    rw [wf_lane h ⟨j, hj⟩ hle, if_neg (Nat.not_lt.mpr hle)]
    exact BitVec.zero_or
  · next hlt =>
    rw [if_pos (Nat.not_le.mp hlt)]
    exact BitVec.or_zero

/-- A byte is its four lanes. -/
theorem byte_ext {a b : Byte} (h : ∀ j < 4, lane j a = lane j b) : a = b := by
  apply BitVec.eq_of_getLsbD_eq
  intro k hk
  have hl := congrArg (fun p => BitVec.getLsbD p (k % 2)) (h (k / 2) (by omega))
  have h2 : k % 2 < 2 := Nat.mod_lt _ (by decide)
  have hk' : 2 * (k / 2) + k % 2 = k := Nat.div_add_mod k 2
  simpa [lane, h2, hk'] using hl

end Sys2Proof.Machine
end

