-- ==== Sys2Proof/Laws/State.lean ====
section
/-!
SUPPORT. Laws/State.lean: what each shared update leaves in each field of the state, so that no
later proof unfolds a record update.
-/

namespace Sys2Proof.Machine

open Sys2Proof

variable (s : State) (r : Regs) (evs : List Event) (e : RpkError) (w : CmdWord) (is : List Instr)

@[simp] theorem idle_ne_active : Phase.idle ≠ Phase.active := by decide
@[simp] theorem idle_ne_err : Phase.idle ≠ Phase.err := by decide
@[simp] theorem active_ne_idle : Phase.active ≠ Phase.idle := by decide
@[simp] theorem active_ne_err : Phase.active ≠ Phase.err := by decide
@[simp] theorem err_ne_idle : Phase.err ≠ Phase.idle := by decide
@[simp] theorem err_ne_active : Phase.err ≠ Phase.active := by decide
@[simp] theorem idle_ne_three : Phase.idle ≠ 3#2 := by decide
@[simp] theorem active_ne_three : Phase.active ≠ 3#2 := by decide
@[simp] theorem err_ne_three : Phase.err ≠ 3#2 := by decide

@[simp] theorem quiet_regs : (quiet s).regs = s.regs := rfl
@[simp] theorem quiet_lines : (quiet s).lines = Lines.low := rfl
@[simp] theorem quiet_out : (quiet s).out = s.out := rfl
@[simp] theorem quiet_inputs : (quiet s).inputs = s.inputs := rfl

@[simp] theorem commit_regs : (commit r evs s).regs = r := rfl
@[simp] theorem commit_lines : (commit r evs s).lines = Lines.ofEvents evs := rfl
@[simp] theorem commit_out : (commit r evs s).out = s.out ++ evs := rfl
@[simp] theorem commit_inputs : (commit r evs s).inputs = s.inputs := rfl

@[simp] theorem raise_phase : (raise e s).regs.phase = Phase.err := rfl
@[simp] theorem raise_conv : (raise e s).regs.conv = s.regs.conv := rfl
@[simp] theorem raise_acc : (raise e s).regs.acc = 0x00#8 := rfl
@[simp] theorem raise_fill : (raise e s).regs.fill = 0#2 := rfl
@[simp] theorem raise_errCode : (raise e s).regs.errCode = e.code := rfl
@[simp] theorem raise_lines : (raise e s).lines = Lines.low := rfl
@[simp] theorem raise_out : (raise e s).out = s.out := rfl
@[simp] theorem raise_inputs : (raise e s).inputs = s.inputs := rfl

@[simp] theorem recover_regs : (recover s).regs = Regs.reset := rfl
@[simp] theorem recover_lines : (recover s).lines = Lines.low := rfl
@[simp] theorem recover_out : (recover s).out = s.out := rfl
@[simp] theorem recover_inputs : (recover s).inputs = s.inputs := rfl

@[simp] theorem reset_phase : Regs.reset.phase = Phase.idle := rfl
@[simp] theorem reset_conv : Regs.reset.conv = 0#2 := rfl
@[simp] theorem reset_acc : Regs.reset.acc = 0x00#8 := rfl
@[simp] theorem reset_fill : Regs.reset.fill = 0#2 := rfl
@[simp] theorem reset_errCode : Regs.reset.errCode = 0#3 := rfl

@[simp] theorem low_outValid : Lines.low.outValid = false := rfl
@[simp] theorem low_outData : Lines.low.outData = 0x00#8 := rfl
@[simp] theorem low_done : Lines.low.done = false := rfl

@[simp] theorem lines_none : Lines.ofEvents [] = Lines.low := rfl
@[simp] theorem lines_byte (b : Byte) :
    Lines.ofEvents [.byte b] = { outValid := true, outData := b, done := false } := rfl
@[simp] theorem lines_done :
    Lines.ofEvents [.done] = { outValid := false, outData := 0x00#8, done := true } := rfl
@[simp] theorem lines_byte_done (b : Byte) :
    Lines.ofEvents [.byte b, .done] = { outValid := true, outData := b, done := true } := rfl

@[simp] theorem present_regs : (s.present w).regs = s.regs := rfl
@[simp] theorem present_out : (s.present w).out = s.out := rfl
@[simp] theorem present_inputs : (s.present w).inputs = PortIn.command w :: s.inputs := rfl

@[simp] theorem presentAll_regs : (s.presentAll is).regs = s.regs := rfl
@[simp] theorem presentAll_out : (s.presentAll is).out = s.out := rfl
@[simp] theorem presentAll_nil : s.presentAll [] = s := rfl
theorem presentAll_cons (i : Instr) :
    s.presentAll (i :: is) = (s.presentAll is).present (encode i) := rfl

end Sys2Proof.Machine
end

