-- ==== Sys2Proof/Laws/Ops.lean ====
section
/-!
SUPPORT. Laws/Ops.lean: once, everything the phase test of R85 and the input port can answer.
-/

namespace Sys2Proof.Machine

open Sys2Proof

theorem byPhase_of_not_wf {s : State} (h : s.regs.wf = false) (a b : State) :
    byPhase s a b = .refused .unreachableState := by simp [byPhase, h]

theorem byPhase_of_err {s : State} (h : s.regs.wf = true) (hp : s.regs.phase = Phase.err)
    (a b : State) : byPhase s a b = .next (quiet s) := by simp [byPhase, h, hp]

theorem byPhase_of_idle {s : State} (h : s.regs.wf = true) (hp : s.regs.phase = Phase.idle)
    (a b : State) : byPhase s a b = .next a := by simp [byPhase, h, hp]

theorem byPhase_of_active {s : State} (h : s.regs.wf = true) (hp : s.regs.phase = Phase.active)
    (a b : State) : byPhase s a b = .next b := by simp [byPhase, h, hp]

/-- Where the phase test answers a next state, the registers are well formed and the phase chose it. -/
theorem byPhase_next {s a b t : State} (h : byPhase s a b = .next t) :
    s.regs.wf = true ∧ (s.regs.phase = Phase.err ∧ t = quiet s ∨
      s.regs.phase = Phase.idle ∧ t = a ∨ s.regs.phase = Phase.active ∧ t = b) := by
  cases hw : s.regs.wf with
  | false => rw [byPhase_of_not_wf hw] at h; cases h
  | true =>
    refine ⟨rfl, ?_⟩
    obtain hp | hp | hp := wf_phase hw
    · rw [byPhase_of_idle hw hp] at h; cases h; exact .inr (.inl ⟨hp, rfl⟩)
    · rw [byPhase_of_active hw hp] at h; cases h; exact .inr (.inr ⟨hp, rfl⟩)
    · rw [byPhase_of_err hw hp] at h; cases h; exact .inl ⟨hp, rfl⟩

/-- The phase test never faults. -/
theorem byPhase_wf {s a b : State} (h : s.regs.wf = true) : ∃ t, byPhase s a b = .next t := by
  obtain hp | hp | hp := wf_phase h
  · exact ⟨_, byPhase_of_idle h hp a b⟩
  · exact ⟨_, byPhase_of_active h hp a b⟩
  · exact ⟨_, byPhase_of_err h hp a b⟩

theorem step_nil {s : State} (h : s.inputs = []) : step s = .next (quiet s) := by
  simp [step, takeInput, h]

theorem step_cons {s : State} {p : PortIn} {rest : List PortIn} (h : s.inputs = p :: rest) :
    step s = applyPort p { s with inputs := rest } := by simp [step, takeInput, h]

@[simp] theorem step_present (s : State) (w : CmdWord) : step (s.present w) = runWord w s := rfl

@[simp] theorem runSteps_zero (s : State) : runSteps 0 s = .next s := rfl

theorem runSteps_succ {s t : State} (h : step s = .next t) (n : Nat) :
    runSteps (n + 1) s = runSteps n t := by simp [runSteps, h]

end Sys2Proof.Machine
end

