-- ==== Sys2Proof/Laws/Step.lean ====
section
/-!
SUPPORT. Laws/Step.lean: once, everything the step that takes a command word can do, case by case
(spec 42_control.md R85). Later proofs split on `WordStep` and never unfold a meaning.
-/

namespace Sys2Proof.Machine

open Sys2Proof

/-- The cases of R85, with the next state of each. -/
inductive WordStep (w : CmdWord) (s : State) : State → Prop
  | nop (hd : decode w = .ok .nop) : WordStep w s (quiet s)
  | clr (hd : decode w = .ok .clr) : WordStep w s (recover s)
  | ignored (hw : s.regs.wf = true) (hp : s.regs.phase = Phase.err) (hd : decode w ≠ .ok .clr) :
      WordStep w s (quiet s)
  | illegal (hw : s.regs.wf = true) (hp : s.regs.phase ≠ Phase.err) (why : IllegalWord)
      (hd : decode w = .error why) : WordStep w s (raise .illegalCommand s)
  | start (hw : s.regs.wf = true) (hp : s.regs.phase = Phase.idle) (conv : Imm) (hc : conv ≤ 3#8)
      (hd : decode w = .ok (.start conv)) : WordStep w s (beginConversion conv s)
  | startUnknown (hw : s.regs.wf = true) (hp : s.regs.phase = Phase.idle) (conv : Imm)
      (hc : 3#8 < conv) (hd : decode w = .ok (.start conv)) :
      WordStep w s (raise .unknownConvention s)
  | startActive (hw : s.regs.wf = true) (hp : s.regs.phase = Phase.active) (conv : Imm)
      (hd : decode w = .ok (.start conv)) : WordStep w s (raise .sequenceError s)
  | pix (hw : s.regs.wf = true) (hp : s.regs.phase = Phase.active) (v : Imm) (hv : v ≤ 3#8)
      (hd : decode w = .ok (.pix v)) : WordStep w s (acceptPixel (lowPair v) s)
  | pixInvalid (hw : s.regs.wf = true) (hp : s.regs.phase = Phase.active) (v : Imm)
      (hv : 3#8 < v) (hd : decode w = .ok (.pix v)) : WordStep w s (raise .invalidPixelValue s)
  | pixIdle (hw : s.regs.wf = true) (hp : s.regs.phase = Phase.idle) (v : Imm)
      (hd : decode w = .ok (.pix v)) : WordStep w s (raise .sequenceError s)
  | endRaster (hw : s.regs.wf = true) (hp : s.regs.phase = Phase.active)
      (hd : decode w = .ok .endRaster) : WordStep w s (finishConversion s)
  | endIdle (hw : s.regs.wf = true) (hp : s.regs.phase = Phase.idle)
      (hd : decode w = .ok .endRaster) : WordStep w s (raise .sequenceError s)

/-- What a step answers is one of the cases. -/
theorem wordStep_of_runWord {w : CmdWord} {s t : State} (h : runWord w s = .next t) :
    WordStep w s t := by
  unfold runWord at h
  cases hd : decode w with
  | error why =>
    rw [hd] at h
    obtain ⟨hw, ⟨hp, rfl⟩ | ⟨hp, rfl⟩ | ⟨hp, rfl⟩⟩ := byPhase_next h
    · exact .ignored hw hp (by simp [hd])
    · exact .illegal hw (by simp [hp]) why hd
    · exact .illegal hw (by simp [hp]) why hd
  | ok i =>
    rw [hd] at h
    cases i with
    | nop => cases h; exact .nop hd
    | clr => cases h; exact .clr hd
    | start conv =>
      obtain ⟨hw, ⟨hp, rfl⟩ | ⟨hp, rfl⟩ | ⟨hp, rfl⟩⟩ := byPhase_next h
      · exact .ignored hw hp (by simp [hd])
      · split
        · next hc => exact .start hw hp conv ((inRange_iff conv).1 hc) hd
        · next hc =>
          exact .startUnknown hw hp conv ((inRange_eq_false_iff conv).1 (by simpa using hc)) hd
      · exact .startActive hw hp conv hd
    | pix v =>
      obtain ⟨hw, ⟨hp, rfl⟩ | ⟨hp, rfl⟩ | ⟨hp, rfl⟩⟩ := byPhase_next h
      · exact .ignored hw hp (by simp [hd])
      · exact .pixIdle hw hp v hd
      · split
        · next hv => exact .pix hw hp v ((inRange_iff v).1 hv) hd
        · next hv =>
          exact .pixInvalid hw hp v ((inRange_eq_false_iff v).1 (by simpa using hv)) hd
    | endRaster =>
      obtain ⟨hw, ⟨hp, rfl⟩ | ⟨hp, rfl⟩ | ⟨hp, rfl⟩⟩ := byPhase_next h
      · exact .ignored hw hp (by simp [hd])
      · exact .endIdle hw hp hd
      · exact .endRaster hw hp hd

/-- Each case is what the step answers. -/
theorem runWord_of_wordStep {w : CmdWord} {s t : State} (h : WordStep w s t) :
    runWord w s = .next t := by
  unfold runWord
  cases h with
  | nop hd => rw [hd]; rfl
  | clr hd => rw [hd]; rfl
  | ignored hw hp hd =>
    cases hi : decode w with
    | error why => exact byPhase_of_err hw hp _ _
    | ok i =>
      cases i with
      | nop => rfl
      | clr => exact absurd hi hd
      | start conv => exact byPhase_of_err hw hp _ _
      | pix v => exact byPhase_of_err hw hp _ _
      | endRaster => exact byPhase_of_err hw hp _ _
  | illegal hw hp why hd =>
    rw [hd]
    obtain hq | hq | hq := wf_phase hw
    · exact byPhase_of_idle hw hq _ _
    · exact byPhase_of_active hw hq _ _
    · exact absurd hq hp
  | start hw hp conv hc hd =>
    simp [hd, exec, execStart, byPhase_of_idle hw hp, (inRange_iff conv).2 hc]
  | startUnknown hw hp conv hc hd =>
    simp [hd, exec, execStart, byPhase_of_idle hw hp, (inRange_eq_false_iff conv).2 hc]
  | startActive hw hp conv hd => rw [hd]; exact byPhase_of_active hw hp _ _
  | pix hw hp v hv hd =>
    simp [hd, exec, execPix, byPhase_of_active hw hp, (inRange_iff v).2 hv]
  | pixInvalid hw hp v hv hd =>
    simp [hd, exec, execPix, byPhase_of_active hw hp, (inRange_eq_false_iff v).2 hv]
  | pixIdle hw hp v hd => rw [hd]; exact byPhase_of_idle hw hp _ _
  | endRaster hw hp hd => rw [hd]; exact byPhase_of_active hw hp _ _
  | endIdle hw hp hd => rw [hd]; exact byPhase_of_idle hw hp _ _

/-- A state with well-formed registers answers a next state for every word. -/
theorem runWord_of_wf {s : State} (hw : s.regs.wf = true) (w : CmdWord) :
    ∃ t, runWord w s = .next t := by
  unfold runWord
  cases decode w with
  | error why => exact byPhase_wf hw
  | ok i =>
    cases i with
    | nop => exact ⟨_, rfl⟩
    | clr => exact ⟨_, rfl⟩
    | start conv => exact byPhase_wf hw
    | pix v => exact byPhase_wf hw
    | endRaster => exact byPhase_wf hw

/-- The two ways an accepted pixel leaves the state (R66). -/
theorem acceptPixel_of_lt {s : State} (h : s.regs.fill < 3#2) (p : Pair) :
    acceptPixel p s =
      commit { s.regs with
        acc := s.regs.acc ||| inLane (mapIndex s.regs.conv p) s.regs.fill.toNat
        fill := s.regs.fill + 1#2 } [] s := by
  simp [acceptPixel, h]

theorem acceptPixel_of_full {s : State} (h : s.regs.fill = 3#2) (p : Pair) :
    acceptPixel p s =
      commit { s.regs with acc := 0x00#8, fill := 0#2 }
        [.byte (s.regs.acc ||| inLane (mapIndex s.regs.conv p) 3)] s := by
  simp [acceptPixel, h]

/-- Every input is a reset, no command, or a command word. -/
theorem applyPort_cases (p : PortIn) (s : State) :
    (p.rst = true ∧ applyPort p s = .next (recover s)) ∨
    (p.rst = false ∧ p.cmdValid = false ∧ applyPort p s = .next (quiet s)) ∨
    (p.rst = false ∧ p.cmdValid = true ∧ applyPort p s = runWord p.cmd s) := by
  cases hr : p.rst <;> cases hv : p.cmdValid <;> simp [applyPort, hr, hv]

end Sys2Proof.Machine
end

