-- ==== Sys2Proof/Tests/Slice0.lean ====
section
/-!
SUPPORT. Tests/Slice0.lean: expected results written out from the spec's words, tables and examples
(each test names its source), a refused term for each well-formedness check, and for each statement
with hypotheses a concrete state and operands that meet them.
-/

namespace Sys2Proof.Tests

open Sys2Proof Sys2Proof.Machine

/-! ### Small states -/

/-- A state in phase IDLE with `CONV = c`. -/
def idleState (c : Pair) : State :=
  { State.reset with regs := { Regs.reset with conv := c } }

/-- A state in phase ACTIVE. -/
def activeState (c : Pair) (acc : Byte) (fill : BitVec 2) : State :=
  { State.reset with
    regs := { phase := Phase.active, conv := c, acc := acc, fill := fill, errCode := 0#3 } }

/-- A state in phase ERR. -/
def errState (c : Pair) (code : BitVec 3) : State :=
  { State.reset with
    regs := { phase := Phase.err, conv := c, acc := 0x00#8, fill := 0#2, errCode := code } }

/-- The registers and events of an outcome, in the spec's notation of 95_test_vectors.md. -/
def after (o : Host.Outcome State Fault Refusal) : Option (Regs × List Event) :=
  match o with
  | .next t => some (t.regs, t.out)
  | .fault _ => none
  | .refused _ => none

/-! ### Refused terms, one for each check -/

/-- R23 (a): `PHASE = 3`. -/
theorem test_illformed_phase :
    ({ Regs.reset with phase := 3#2 } : Regs).phaseLegal = false ∧
      ({ Regs.reset with phase := 3#2 } : Regs).wf = false := by decide

/-- R23 (b): a nonzero lane at `FILL`. -/
theorem test_illformed_lane :
    (activeState 0#2 0x04#8 1#2).regs.lanesClear = false ∧
      (activeState 0#2 0x04#8 1#2).regs.wf = false := by decide

/-- R23 (c): `FILL` nonzero in phase IDLE. -/
theorem test_illformed_idle_fill :
    ({ Regs.reset with fill := 1#2 } : Regs).emptyOutsideActive = false ∧
      ({ Regs.reset with fill := 1#2 } : Regs).wf = false := by decide

/-- R23 (d): an error code in phase IDLE, and `ERRCODE = 5` in phase ERR. -/
theorem test_illformed_errCode :
    ({ Regs.reset with errCode := 1#3 } : Regs).errCodeLegal = false ∧
      (errState 0#2 5#3).regs.errCodeLegal = false ∧ (errState 0#2 5#3).regs.wf = false := by decide

/-- R59: an operand above 255. -/
theorem test_illformed_source_operand :
    (SourceLine.pix 256).wellFormed = false ∧ (SourceLine.pix 256).assemble = none ∧
      (SourceLine.start (.number 256)).wellFormed = false ∧
      (SourceLine.pack (.named .identity) [0, 256]).wellFormed = false := by decide

/-- A refused register state stops `PIX` by name (93 V3). -/
theorem test_broken_registers_refused :
    (match exec (.pix 0#8) { State.reset with regs := { Regs.reset with phase := 3#2 } } with
      | .refused .unreachableState => true
      | _ => false) = true := by decide

/-! ### Decoding, the words written out from 30_encoding.md R47 to R56 -/

/-- R50: `0000 00000000`. -/
theorem test_decode_nop : decode 0b000000000000#12 = .ok .nop := by decide

/-- R52: `0001 cccccccc` with `c = 2` and with `c = 255`. -/
theorem test_decode_start :
    decode 0b000100000010#12 = .ok (.start 2#8) ∧
      decode 0b000111111111#12 = .ok (.start 255#8) := by decide

/-- R53: `0010 vvvvvvvv` with `v = 3` and with `v = 0b10000001`. -/
theorem test_decode_pix :
    decode 0b001000000011#12 = .ok (.pix 3#8) ∧
      decode 0b001010000001#12 = .ok (.pix 129#8) := by decide

/-- R54: `0011 00000000`. -/
theorem test_decode_end : decode 0b001100000000#12 = .ok .endRaster := by decide

/-- R55: `0100 00000000`. -/
theorem test_decode_clr : decode 0b010000000000#12 = .ok .clr := by decide

/-- R56: one word of each illegal class, and the last reserved word. -/
theorem test_decode_illegal :
    decode 0x0FF#12 = .error .nopOperand ∧ decode 0x301#12 = .error .endOperand ∧
      decode 0x401#12 = .error .clrOperand ∧ decode 0x500#12 = .error .reservedOp ∧
      decode 0xFFF#12 = .error .reservedOp := by decide

/-- R59: `START white_transparent` is `0x102`, `PIX 3` is `0x203`, `END` is `0x300`. -/
theorem test_encode_examples :
    encode (.start 2#8) = 0x102#12 ∧ encode (.pix 3#8) = 0x203#12 ∧
      encode .endRaster = 0x300#12 := by decide

/-- The table's rows: `START` with operand bits zero; a 13-bit number is no command word. -/
theorem test_decodeTableWord :
    decodeTableWord 16 0x100 = some (.start 0#8) ∧ decodeTableWord 16 0x1100 = none := by decide

/-- R6: the parameters agree with each other and with the ROM's size. -/
theorem test_parameters :
    2 ^ Config.pixBits = Config.palette ∧ Config.group * Config.pixBits = Config.byteW ∧
      4 + Config.immW = Config.cmdW ∧ Config.statusW = 8 ∧
      conventionRom.length = Config.nConv * Config.palette := by decide

/-! ### The mapper and the lanes -/

/-- V-MAP, row `vector_source`; R76 `white_transparent`. -/
theorem test_rom :
    rom 3#2 1#2 = 3#2 ∧ rom 3#2 3#2 = 1#2 ∧ rom 2#2 0#2 = 3#2 ∧ rom 2#2 3#2 = 0#2 := by decide

/-- V-PACK, `[1,2,3,3]` under `white_transparent`; V-ROW under `vector_source`. -/
theorem test_pack :
    pack [1#2, 2#2, 3#2, 3#2] (mapIndex 2#2) = [0x06#8] ∧
      pack [1#2, 2#2, 3#2, 3#2, 2#2, 1#2] (mapIndex 3#2) = [0x5B#8, 0x0E#8] := by decide

/-- R61: an element outside 0..3 has no packed value; it is not masked. -/
theorem test_pack_invalid :
    (match packChecked [1#8, 4#8] (mapIndex 0#2) with
      | .error .invalidPixelValue => true
      | _ => false) = true := by decide

/-! ### One step of each command -/

/-- R83, the example: `NOP` leaves `(ACTIVE, 2, 0x0B, 2)` as it is. -/
theorem test_nop :
    after (step ((activeState 2#2 0x0B#8 2#2).present 0x000#12)) =
      some ((activeState 2#2 0x0B#8 2#2).regs, []) := by decide

/-- R79, the example: from reset, `START white_transparent`. -/
theorem test_start :
    after (step (State.reset.present 0x102#12)) =
      some ((activeState 2#2 0x00#8 0#2).regs, []) := by decide

/-- V-ERR `100 109`: the phase is tested before the operand, so the code is 4, not 2. -/
theorem test_start_active :
    after (step ((activeState 0#2 0x00#8 0#2).present 0x109#12)) =
      some ((errState 0#2 4#3).regs, []) := by decide

/-- R66, the example: the fourth pixel emits `Byte(0xE4)`. -/
theorem test_pix_completes_group :
    after (step ((activeState 0#2 0x24#8 3#2).present 0x203#12)) =
      some ((activeState 0#2 0x00#8 0#2).regs, [.byte 0xE4#8]) := by decide

/-- P2, step 4: under `white_transparent`, pixel 2 maps to 1 and goes to lane 2. -/
theorem test_pix_fills_lane :
    after (step ((activeState 2#2 0x0B#8 2#2).present 0x202#12)) =
      some ((activeState 2#2 0x1B#8 3#2).regs, []) := by decide

/-- V-PAD, `[1,2]` under `white_transparent`: `0xF6`, then `Done`. -/
theorem test_end_pads :
    after (step ((activeState 2#2 0x06#8 2#2).present 0x300#12)) =
      some ((idleState 2#2).regs, [.byte 0xF6#8, .done]) := by decide

/-- R68, corner case: with `FILL = 0` only `Done`; the lines show it. -/
theorem test_end_empty :
    (match step ((activeState 1#2 0x00#8 0#2).present 0x300#12) with
      | .next t => decide (t.lines = { outValid := false, outData := 0x00#8, done := true } ∧
          t.out = [.done])
      | _ => false) = true := by decide

/-- R84, the example: `CLR` in phase ERR. -/
theorem test_clr :
    (errState 3#2 1#3).status = 0x12#8 ∧
      after (step ((errState 3#2 1#3).present 0x400#12)) = some (Regs.reset, []) := by decide

/-- V-ERR `401`: a would-be `CLR` with an operand raises `IllegalCommand`. -/
theorem test_illegal_word :
    after (step (State.reset.present 0x401#12)) = some ((errState 0#2 3#3).regs, []) := by decide

/-- V-ERR `104 401`: in phase ERR it is ignored, the first code is kept. -/
theorem test_illegal_word_in_err :
    after (step ((errState 0#2 2#3).present 0x401#12)) = some ((errState 0#2 2#3).regs, []) := by
  decide

/-- V-ERR `102 201 2FF`: the invalid pixel clears `ACC` and `FILL` and keeps `CONV`. -/
theorem test_pix_invalid :
    after (step ((activeState 2#2 0x02#8 1#2).present 0x2FF#12)) =
      some ((errState 2#2 1#3).regs, []) := by decide

/-- R104: reset overrides the command presented with it. -/
theorem test_reset_input :
    after (step { activeState 2#2 0x02#8 1#2 with
        inputs := [{ rst := true, cmdValid := true, cmd := 0x201#12 }] }) =
      some (Regs.reset, []) := by decide

/-- R24: with `cmd_valid = 0` the word on `cmd` is ignored. -/
theorem test_no_command :
    after (step { activeState 2#2 0x02#8 1#2 with
        inputs := [{ rst := false, cmdValid := false, cmd := 0x400#12 }] }) =
      some ((activeState 2#2 0x02#8 1#2).regs, []) := by decide

/-- A row's word placed at reset is what the next step runs. -/
theorem test_withFetchWord :
    after (step (State.reset.withFetchWord 16 0x103)) =
      some ((activeState 3#2 0x00#8 0#2).regs, []) := by decide

/-- The host of R100 commits the bytes it took when it sees `done`. -/
theorem test_host_commits :
    (match step ((activeState 0#2 0x09#8 2#2).present 0x300#12) with
      | .next t => decide (HostView.observe { provisional := [0xE4#8], committed := [] } t =
          { provisional := [], committed := [[0xE4#8, 0x09#8]] })
      | _ => false) = true := by decide

/-! ### The assembler -/

/-- P1's text gives P1's words. -/
theorem test_assemble_pack :
    assembleLine "PACK identity, [0,1,2,3] ; P1".toList =
      some [0x100#12, 0x200#12, 0x201#12, 0x202#12, 0x203#12, 0x300#12] := by decide

/-- R59: names, hexadecimal, comment lines; `PIX 256` is out of range; small letters are no
mnemonic. -/
theorem test_assemble_lines :
    assembleProgram ["START white_transparent".toList, "; pixels".toList, "PIX 0x03".toList,
        "ABORT".toList] = some [0x102#12, 0x203#12, 0x400#12] ∧
      assembleLine "PIX 256".toList = none ∧ assembleLine "pix 3".toList = none := by decide

/-! ### Each statement's hypotheses are met -/

/-- `NoCommandChangesNoRegister`. -/
theorem witness_no_inputs : State.reset.inputs = [] := by decide

/-- `StepRunsDecodedCommand`. -/
theorem witness_decoded : decode 0x2FF#12 = .ok (.pix 255#8) := by decide

/-- `DecodeEncodeRoundTrip`. -/
theorem witness_wellFormed : (Instr.pix 255#8).wellFormed = true := by decide

/-- `IllegalWordsRaiseIllegalCommand`, both clauses on a state. -/
theorem witness_illegal :
    (idleState 3#2).regs.wf = true ∧ (idleState 3#2).regs.phase ≠ Phase.err ∧
      (errState 3#2 4#3).regs.wf = true ∧ (errState 3#2 4#3).regs.phase = Phase.err ∧
      decode 0x4FF#12 = .error .clrOperand := by decide

/-- `StartBeginsConversion`: the operand at 3 and at 4, and the three phases. -/
theorem witness_start :
    (idleState 1#2).regs.wf = true ∧ (idleState 1#2).regs.phase = Phase.idle ∧
      (3#8 : Imm) ≤ 3#8 ∧ 3#8 < (4#8 : Imm) ∧ 3#8 < (255#8 : Imm) ∧
      (errState 0#2 1#3).regs.wf = true ∧ (errState 0#2 1#3).regs.phase = Phase.err ∧
      (activeState 0#2 0x3F#8 3#2).regs.wf = true ∧
      (activeState 0#2 0x3F#8 3#2).regs.phase = Phase.active := by decide

/-- `ConventionIsFixedForTheConversion`: words next to `CLR` in phase ACTIVE. -/
theorem witness_convention :
    (idleState 0#2).regs.wf = true ∧ (idleState 0#2).regs.phase = Phase.idle ∧
      (activeState 3#2 0x01#8 1#2).regs.wf = true ∧
      (activeState 3#2 0x01#8 1#2).regs.phase = Phase.active ∧ 0x3FF#12 ≠ 0x400#12 ∧
      0x401#12 ≠ 0x400#12 := by decide

/-- `PixFeedsOnePixel` and `PixFillsItsLaneOnly`: `FILL` at 0, at 2 and at 3, operands 3 and 4, and
the three phases. -/
theorem witness_pix :
    (activeState 2#2 0x00#8 0#2).regs.wf = true ∧
      (activeState 2#2 0x0F#8 2#2).regs.wf = true ∧
      (activeState 2#2 0x0F#8 2#2).regs.phase = Phase.active ∧
      (activeState 2#2 0x0F#8 2#2).regs.fill < 3#2 ∧
      (activeState 2#2 0x3F#8 3#2).regs.wf = true ∧
      (activeState 2#2 0x3F#8 3#2).regs.fill = 3#2 ∧ (3#8 : Imm) ≤ 3#8 ∧ 3#8 < (4#8 : Imm) ∧
      (errState 0#2 1#3).regs.wf = true ∧ (errState 0#2 1#3).regs.phase = Phase.err ∧
      (idleState 0#2).regs.wf = true ∧ (idleState 0#2).regs.phase = Phase.idle := by decide

/-- `EndPadsAndFinishes` and the first two clauses of `EndPadsMissingLanesWithMappedZero`: `FILL`
at 0, 1 and 3, and the three phases. -/
theorem witness_end :
    (activeState 2#2 0x03#8 1#2).regs.wf = true ∧
      (activeState 2#2 0x03#8 1#2).regs.phase = Phase.active ∧
      (activeState 2#2 0x03#8 1#2).regs.fill ≠ 0#2 ∧
      (activeState 2#2 0x3F#8 3#2).regs.wf = true ∧ (activeState 2#2 0x3F#8 3#2).regs.fill ≠ 0#2 ∧
      (activeState 2#2 0x00#8 0#2).regs.wf = true ∧ (activeState 2#2 0x00#8 0#2).regs.fill = 0#2 ∧
      (errState 0#2 1#3).regs.wf = true ∧ (errState 0#2 1#3).regs.phase = Phase.err ∧
      (idleState 0#2).regs.wf = true ∧ (idleState 0#2).regs.phase = Phase.idle := by decide

/-- `EndPadsMissingLanesWithMappedZero`, third clause: a byte emitted by a word that is no `END`. -/
theorem witness_byte_without_end :
    (match step ((activeState 0#2 0x24#8 3#2).present 0x203#12) with
      | .next t => decide (Event.byte 0xE4#8 ∈ t.out.drop (activeState 0#2 0x24#8 3#2).out.length)
      | _ => false) = true ∧ decode 0x203#12 = .ok (.pix 3#8) := by decide

/-- `ClrRestoresResetRegisters`: an operand that is not zero, and a `CLR` that answers. -/
theorem witness_clr :
    (1#8 : Imm) ≠ 0#8 ∧ (255#8 : Imm) ≠ 0#8 ∧
      after (exec .clr (errState 0#2 1#3)) = some (Regs.reset, []) := by decide

/-- `StepTestsInOrder`: a state in each phase and a word of each kind, at the operand's boundary. -/
theorem witness_step_order :
    (idleState 0#2).regs.wf = true ∧ (idleState 0#2).regs.phase ≠ Phase.err ∧
      (activeState 0#2 0x00#8 0#2).regs.wf = true ∧
      (activeState 0#2 0x00#8 0#2).regs.phase ≠ Phase.err ∧
      (errState 0#2 4#3).regs.wf = true ∧ (errState 0#2 4#3).regs.phase = Phase.err ∧
      decode 0x400#12 = .ok .clr ∧ decode 0x401#12 = .error .clrOperand ∧
      decode 0x401#12 ≠ .ok .clr ∧ decode 0x000#12 = .ok .nop ∧
      decode 0x104#12 = .ok (.start 4#8) ∧ decode 0x103#12 = .ok (.start 3#8) ∧
      decode 0x204#12 = .ok (.pix 4#8) ∧ decode 0x203#12 = .ok (.pix 3#8) ∧
      decode 0x300#12 = .ok .endRaster := by decide

/-- `PhaseTable`, `StatusFields`, `StatusTakesNineValues`, `PulsesAreSetByTheirCausesOnly`,
`NoStepIsStuck`: well-formed registers in each phase. -/
theorem witness_wf :
    (idleState 3#2).regs.wf = true ∧ (activeState 3#2 0x3F#8 3#2).regs.wf = true ∧
      (errState 3#2 4#3).regs.wf = true ∧ PortIn.reset.rst = true ∧
      PortIn.idle.cmdValid = false := by decide

/-- `StepDependsOnRegistersAndWordOnly`: two states with the same registers and different records,
and a word that answers. -/
theorem witness_same_registers :
    (activeState 0#2 0x24#8 3#2).regs =
        ({ activeState 0#2 0x24#8 3#2 with out := [.done], inputs := [PortIn.idle] } : State).regs ∧
      after (step ((activeState 0#2 0x24#8 3#2).present 0x203#12)) =
        some ((activeState 0#2 0x00#8 0#2).regs, [.byte 0xE4#8]) := by decide

/-- `ConversionEndsByEndErrorOrClr`. -/
theorem witness_conversion_in_progress :
    (activeState 1#2 0x01#8 1#2).regs.wf = true ∧
      (activeState 1#2 0x01#8 1#2).regs.phase = Phase.active := by decide

/-- `ErrorCauses`. -/
theorem witness_no_error_yet :
    (activeState 1#2 0x01#8 1#2).regs.wf = true ∧
      (activeState 1#2 0x01#8 1#2).regs.phase ≠ Phase.err ∧
      (idleState 1#2).regs.wf = true ∧ (idleState 1#2).regs.phase ≠ Phase.err ∧
      (errState 1#2 3#3).regs.wf = true ∧ (errState 1#2 3#3).regs.phase = Phase.err := by decide

/-- `NopWritesNoRegister`, third clause: a `NOP` that answers. -/
theorem witness_nop :
    after (exec .nop (errState 1#2 3#3)) = some ((errState 1#2 3#3).regs, []) := by decide

/-- `ErrorPhaseIgnoresAllButClr`: the words next to `CLR`. -/
theorem witness_err_word :
    (errState 2#2 1#3).regs.wf = true ∧ (errState 2#2 1#3).regs.phase = Phase.err ∧
      0x3FF#12 ≠ 0x400#12 ∧ 0x401#12 ≠ 0x400#12 := by decide

/-- `ErrorPhaseIsLeftOnlyByClrOrReset`: a state in phase ERR whose step leaves it. -/
theorem witness_err_left :
    (errState 2#2 1#3).regs.wf = true ∧
      ((errState 2#2 1#3).present 0x400#12).regs.phase = Phase.err ∧
      after (step ((errState 2#2 1#3).present 0x400#12)) = some (Regs.reset, []) ∧
      Regs.reset.phase ≠ Phase.err := by decide

/-- `ErrorKeepsBytesAlreadyEmitted` and the second clause of
`HostKeepsExactlyCompletedConversions`: a word of each kind that ends a conversion so. -/
theorem witness_error_words :
    (idleState 2#2).regs.wf = true ∧ (idleState 2#2).regs.phase = Phase.idle ∧
      decode 0x301#12 = .error .endOperand ∧ decode 0x100#12 = .ok (.start 0#8) ∧
      decode 0x204#12 = .ok (.pix 4#8) ∧ 3#8 < (4#8 : Imm) ∧ decode 0x400#12 = .ok .clr := by decide

/-- `StepKeepsRegisterInvariant`: a state with the invariant that takes a step. -/
theorem witness_invariant :
    ((activeState 0#2 0x24#8 3#2).present 0x203#12).Inv ∧
      after (step ((activeState 0#2 0x24#8 3#2).present 0x203#12)) =
        some ((activeState 0#2 0x00#8 0#2).regs, [.byte 0xE4#8]) := by
  refine ⟨?_, by decide⟩
  unfold State.Inv
  decide

/-- `BrokenRegistersAreRefused`. -/
theorem witness_broken :
    ({ State.reset with regs := { Regs.reset with phase := 3#2 } } : State).regs.wf = false ∧
      decode 0xFFF#12 = .error .reservedOp := by decide

/-- `AccessMatrix`: every command answers a next state somewhere, and an illegal word does. -/
theorem witness_access :
    after (exec .nop (idleState 1#2)) = some ((idleState 1#2).regs, []) ∧
      after (exec (.start 3#8) (idleState 1#2)) = some ((activeState 3#2 0x00#8 0#2).regs, []) ∧
      after (exec (.pix 3#8) (activeState 0#2 0x24#8 3#2)) =
        some ((activeState 0#2 0x00#8 0#2).regs, [.byte 0xE4#8]) ∧
      after (exec .endRaster (activeState 0#2 0x09#8 2#2)) =
        some ((idleState 0#2).regs, [.byte 0x09#8, .done]) ∧
      after (exec .clr (idleState 1#2)) = some (Regs.reset, []) ∧
      decode 0x301#12 = .error .endOperand ∧
      after (step ((activeState 0#2 0x01#8 1#2).present 0x301#12)) =
        some ((errState 0#2 3#3).regs, []) := by decide

/-- `ConversionEmitsPackThenDone`, `ConversionFailsExactlyWherePackFails`, `BytesStreamInOrder`,
`ConversionEmitsCeilQuarterBytes`, `BlackTransparentPacksAsIdentity` and the first clause of
`HostKeepsExactlyCompletedConversions`: phase IDLE with a convention left over. -/
theorem witness_conversion_start :
    (idleState 3#2).regs.wf = true ∧ (idleState 3#2).regs.phase = Phase.idle := by decide

/-- `ConversionFailsExactlyWherePackFails`: rasters on both sides of the check. -/
theorem witness_pack_checked :
    (match packChecked [3#8] (mapIndex 2#2), packChecked [3#8, 4#8] (mapIndex 2#2) with
      | .ok bs, .error e => decide (bs = [0xFC#8] ∧ e = .invalidPixelValue)
      | _, _ => false) = true := by decide

/-- `EachByteIsLocal`: V-LOC's rasters, byte 0, which differ after the fourth pixel; and a byte
whose last pixels are past the end of one raster and raw 0 in the other. -/
theorem witness_local :
    4 * 0 < [0#2, 1#2, 2#2, 3#2].length ∧ 4 * 0 < [0#2, 1#2, 2#2, 3#2, 1#2].length ∧
      (∀ j, j < 4 → [0#2, 1#2, 2#2, 3#2].getD (4 * 0 + j) 0#2 =
        [0#2, 1#2, 2#2, 3#2, 1#2].getD (4 * 0 + j) 0#2) ∧
      (∀ j, j < 4 → [1#2].getD (4 * 0 + j) 0#2 = [1#2, 0#2].getD (4 * 0 + j) 0#2) := by decide

end Sys2Proof.Tests
end

/-!
PROOFS. The state family: the statements about the state's presentation at the ports: the reset
table, the convention ROM, the status word and the output lines (spec 10_state.md R20 to R28).
-/

namespace Sys2Proof.Machine

open Sys2Proof

/-! ### The convention ROM -/

/-- The 4-bit address `c, p` as a number (R21, R34). -/
theorem romAddress_toNat (c p : Pair) : (c ++ p).toNat = 4 * c.toNat + p.toNat := by
  have hp : p.toNat < 2 ^ 2 := p.isLt
  rw [BitVec.toNat_append, ← Nat.shiftLeft_add_eq_or_of_lt hp, Nat.shiftLeft_eq, Nat.mul_comm]

/-- Settles O11: the ROM's list is the spec's flat list and its address is `4c + p`. -/
theorem romHoldsTheFourTables : Obligations.RomHoldsTheFourTables := by
  intro c p
  rw [rom, conventionRom, romAddress_toNat]

/-- Settles O1: every row of the reset table, by evaluation of the one reset state. -/
theorem resetRegisterValues : Obligations.ResetRegisterValues := by
  unfold Obligations.ResetRegisterValues
  decide

/-! ### The status word -/

/-- Each field of the status word is a register, whatever the registers hold (R20). -/
theorem statusFields_of_regs (phase fill : BitVec 2) (errCode : BitVec 3) :
    let b : Byte := phase.setWidth 8 ||| fill.setWidth 8 <<< 2 ||| errCode.setWidth 8 <<< 4
    b.extractLsb' 0 2 = phase ∧ b.extractLsb' 2 2 = fill ∧ b.extractLsb' 4 3 = errCode ∧
      b.getLsbD 7 = false := by
  revert phase fill errCode
  decide

@[simp] theorem status_phase (s : State) : s.status.extractLsb' 0 2 = s.regs.phase :=
  (statusFields_of_regs s.regs.phase s.regs.fill s.regs.errCode).1

@[simp] theorem status_fill (s : State) : s.status.extractLsb' 2 2 = s.regs.fill :=
  (statusFields_of_regs s.regs.phase s.regs.fill s.regs.errCode).2.1

@[simp] theorem status_errCode (s : State) : s.status.extractLsb' 4 3 = s.regs.errCode :=
  (statusFields_of_regs s.regs.phase s.regs.fill s.regs.errCode).2.2.1

@[simp] theorem status_bit7 (s : State) : s.status.getLsbD 7 = false :=
  (statusFields_of_regs s.regs.phase s.regs.fill s.regs.errCode).2.2.2

/-- R23 (a): well-formed registers do not hold the unused phase. -/
theorem wf_phase_ne_three {r : Regs} (h : r.wf = true) : r.phase ≠ 3#2 := by
  obtain hp | hp | hp := wf_phase h <;> simp [hp]

/-- Settles O32: the fields are the registers, whose legal values R23 gives. -/
theorem statusFields : Obligations.StatusFields := by
  refine ⟨fun s => ⟨status_phase s, status_fill s, status_errCode s, status_bit7 s⟩,
    fun s hw => ?_⟩
  rw [status_phase, status_fill, status_errCode]
  exact ⟨wf_phase_ne_three hw, fun hp => (wf_empty hw hp).2, wf_errCode_le hw, wf_errCode hw⟩

/-! ### The output lines -/

/-- An accepted pixel raises `out_valid` exactly when it completes its group (R66). -/
theorem acceptPixel_outValid (p : Pair) (s : State) :
    (acceptPixel p s).lines.outValid = true ↔ s.regs.fill = 3#2 := by
  obtain hf | hf := fill_lt_or_eq s.regs.fill
  · have hne : s.regs.fill ≠ 3#2 := BitVec.ne_of_lt hf
    simp [acceptPixel_of_lt hf, hne]
  · simp [acceptPixel_of_full hf, hf]

/-- An accepted pixel never emits `Done` (R66). -/
theorem acceptPixel_done (p : Pair) (s : State) : (acceptPixel p s).lines.done = false := by
  obtain hf | hf := fill_lt_or_eq s.regs.fill
  · simp [acceptPixel_of_lt hf]
  · simp [acceptPixel_of_full hf]

/-- An accepted `END` raises `out_valid` exactly when there are pixels to flush (R68). -/
theorem finishConversion_outValid (s : State) :
    (finishConversion s).lines.outValid = true ↔ s.regs.fill ≠ 0#2 := by
  by_cases hf : s.regs.fill = 0#2 <;> simp [finishConversion, hf]

/-- An accepted `END` always emits `Done` (R68). -/
theorem finishConversion_done (s : State) : (finishConversion s).lines.done = true := by
  by_cases hf : s.regs.fill = 0#2 <;> simp [finishConversion, hf]

/-- The step takes an accepted `PIX v` (R66). -/
def AcceptsPixel (w : CmdWord) (s : State) (v : Imm) : Prop :=
  s.regs.phase = Phase.active ∧ v ≤ 3#8 ∧ decode w = .ok (.pix v)

/-- The step takes an accepted `END` (R68). -/
def AcceptsEnd (w : CmdWord) (s : State) : Prop :=
  s.regs.phase = Phase.active ∧ decode w = .ok .endRaster

/-- Only an accepted `PIX` or `END` can move the lines: in every other case they are low (R22). -/
theorem wordStep_lines {w : CmdWord} {s t : State} (h : WordStep w s t) :
    (∃ v, AcceptsPixel w s v ∧ t = acceptPixel (lowPair v) s) ∨
    (AcceptsEnd w s ∧ t = finishConversion s) ∨
    ((∀ v, ¬ AcceptsPixel w s v) ∧ ¬ AcceptsEnd w s ∧ t.lines = Lines.low) := by
  cases h with
  | pix hw hp v hv hd => exact .inl ⟨v, ⟨hp, hv, hd⟩, rfl⟩
  | endRaster hw hp hd => exact .inr (.inl ⟨⟨hp, hd⟩, rfl⟩)
  | pixInvalid hw hp v hv hd =>
    refine .inr (.inr ⟨?_, by simp [AcceptsEnd, hd], rfl⟩)
    rintro u ⟨-, hu, hdu⟩
    obtain rfl : v = u := by simpa [hd] using hdu
    exact BitVec.not_le.mpr hv hu
  | nop hd | clr hd | illegal _ _ _ hd | start _ _ _ _ hd | startUnknown _ _ _ _ hd
  | startActive _ _ _ hd => simp [AcceptsPixel, AcceptsEnd, hd, beginConversion]
  | ignored _ hp | endIdle _ hp | pixIdle _ hp => simp [AcceptsPixel, AcceptsEnd, hp]

/-- A command word is not both a pixel and `END`. -/
theorem AcceptsPixel.not_acceptsEnd {w : CmdWord} {s : State} {v : Imm}
    (h : AcceptsPixel w s v) : ¬ AcceptsEnd w s := by
  simp [AcceptsEnd, h.2.2]

/-- The causes of `out_valid` (R22). -/
theorem wordStep_outValid {w : CmdWord} {s t : State} (h : WordStep w s t) :
    t.lines.outValid = true ↔
      (s.regs.fill = 3#2 ∧ ∃ v, AcceptsPixel w s v) ∨ (s.regs.fill ≠ 0#2 ∧ AcceptsEnd w s) := by
  obtain ⟨v, hv, rfl⟩ | ⟨he, rfl⟩ | ⟨hv, he, hl⟩ := wordStep_lines h
  · have hex : ∃ v, AcceptsPixel w s v := ⟨v, hv⟩
    simp [acceptPixel_outValid, hex, hv.not_acceptsEnd]
  · have hnone : ¬ ∃ v, AcceptsPixel w s v := fun ⟨_, hv⟩ => hv.not_acceptsEnd he
    simp [finishConversion_outValid, hnone, he]
  · simp [hl, hv, he]

/-- The cause of `done` (R22). -/
theorem wordStep_done {w : CmdWord} {s t : State} (h : WordStep w s t) :
    t.lines.done = true ↔ AcceptsEnd w s := by
  obtain ⟨v, hv, rfl⟩ | ⟨he, rfl⟩ | ⟨hv, he, hl⟩ := wordStep_lines h
  · simp [acceptPixel_done, hv.not_acceptsEnd]
  · simp [finishConversion_done, he]
  · simp [hl, he]

/-- Port `err` is a view of `PHASE` (R22). -/
theorem err_iff (s : State) : s.err = true ↔ s.regs.phase = Phase.err := by simp [State.err]

/-- An input that presents no command, reset included, leaves the lines low (R22, R28). -/
theorem applyPort_lines_of_no_command {p : PortIn} (hp : p.rst = true ∨ p.cmdValid = false)
    (s : State) : ∃ t, applyPort p s = .next t ∧ t.lines = Lines.low := by
  obtain ⟨-, h⟩ | ⟨-, -, h⟩ | ⟨hr, hv, -⟩ := applyPort_cases p s
  · exact ⟨_, h, recover_lines s⟩
  · exact ⟨_, h, quiet_lines s⟩
  · simp [hr, hv] at hp

/-- Settles O34: the word's step by its cases, the other inputs by the port's, and `raise`. -/
theorem pulsesAreSetByTheirCausesOnly : Obligations.PulsesAreSetByTheirCausesOnly := by
  refine ⟨fun s w hw => ?_, fun s p hp => ?_, fun e s => (err_iff _).2 (raise_phase s e)⟩
  · obtain ⟨t, ht⟩ := runWord_of_wf hw w
    have hstep := wordStep_of_runWord ht
    refine ⟨t, ht, (wordStep_outValid hstep).trans ?_, wordStep_done hstep, err_iff t⟩
    simp only [AcceptsPixel, AcceptsEnd, exists_and_left, and_or_left, and_left_comm]
  · obtain ⟨t, ht, hl⟩ := applyPort_lines_of_no_command hp s
    exact ⟨t, (step_cons rfl).trans ht, by simp [hl], by simp [hl]⟩

end Sys2Proof.Machine

/-!
PROOFS. The memory family: the convention is fixed for the conversion, padding, the number of bytes
and the locality of each byte (spec 20_memory.md R38, R39, R44, R46). What a conversion does is said
once: `runSteps_conversion` gives its final state by the model's own operations, and `Packing` is
the invariant of the pixels fed so far, from which `conversionResult_out` reads the emitted bytes.
-/

namespace Sys2Proof.Machine

open Sys2Proof

/-! ### One command in its phase -/

/-- `START` in phase IDLE with an operand in range (R79). -/
theorem exec_start_of_idle {s : State} (hw : s.regs.wf = true) (hp : s.regs.phase = Phase.idle)
    {conv : Imm} (hc : inRange conv = true) :
    exec (.start conv) s = .next (beginConversion conv s) :=
  (byPhase_of_idle hw hp _ _).trans (by rw [if_pos hc])

/-- `START` in phase ACTIVE is out of sequence (R79). -/
theorem exec_start_of_active {s : State} (hw : s.regs.wf = true)
    (hp : s.regs.phase = Phase.active) (conv : Imm) :
    exec (.start conv) s = .next (raise .sequenceError s) :=
  byPhase_of_active hw hp _ _

/-- `PIX` in phase ACTIVE with an operand in range (R66). -/
theorem exec_pix_of_active {s : State} (hw : s.regs.wf = true)
    (hp : s.regs.phase = Phase.active) {v : Imm} (hv : inRange v = true) :
    exec (.pix v) s = .next (acceptPixel (lowPair v) s) :=
  (byPhase_of_active hw hp _ _).trans (by rw [if_pos hv])

/-- `END` in phase ACTIVE (R68). -/
theorem exec_end_of_active {s : State} (hw : s.regs.wf = true)
    (hp : s.regs.phase = Phase.active) : exec .endRaster s = .next (finishConversion s) :=
  byPhase_of_active hw hp _ _

/-! ### What an accepted command leaves in the registers and in `OUT` -/

@[simp] theorem beginConversion_regs (conv : Imm) (s : State) :
    (beginConversion conv s).regs =
      { s.regs with conv := lowPair conv, phase := Phase.active, acc := 0x00#8, fill := 0#2 } := rfl

@[simp] theorem beginConversion_out (conv : Imm) (s : State) :
    (beginConversion conv s).out = s.out := List.append_nil _

@[simp] theorem acceptPixel_phase (p : Pair) (s : State) :
    (acceptPixel p s).regs.phase = s.regs.phase := by
  simp only [acceptPixel]; split <;> rfl

@[simp] theorem acceptPixel_conv (p : Pair) (s : State) :
    (acceptPixel p s).regs.conv = s.regs.conv := by
  simp only [acceptPixel]; split <;> rfl

@[simp] theorem acceptPixel_errCode (p : Pair) (s : State) :
    (acceptPixel p s).regs.errCode = s.regs.errCode := by
  simp only [acceptPixel]; split <;> rfl

@[simp] theorem finishConversion_conv (s : State) :
    (finishConversion s).regs.conv = s.regs.conv := rfl

/-- `END` with an empty group emits `Done` alone (R38, R68). -/
theorem finishConversion_out_of_empty {s : State} (hf : s.regs.fill = 0#2) :
    (finishConversion s).out = s.out ++ [.done] := by
  simp [finishConversion, hf]

/-- `END` with a group begun emits the padded byte, then `Done` (R38, R68). -/
theorem finishConversion_out_of_nonempty {s : State} (hf : s.regs.fill ≠ 0#2) :
    (finishConversion s).out = s.out ++ [.byte (paddedByte s.regs), .done] := by
  simp [finishConversion, hf]

/-- The counter does not wrap below 3. -/
theorem fill_succ_toNat : ∀ f : BitVec 2, f < 3#2 → (f + 1#2).toNat = f.toNat + 1 := by decide

/-- Registers in phase ACTIVE with an empty group are well formed when `ERRCODE` is zero (R23). -/
theorem wf_of_active_empty {r : Regs} (hp : r.phase = Phase.active) (ha : r.acc = 0x00#8)
    (he : r.errCode = 0#3) : r.wf = true :=
  wf_of_parts (by simp [hp]) (by simp [ha]) (by simp [hp]) (by simp [hp, he]) (by simp [he])

/-- Outside phase ERR the error code is zero (R23 (d)). -/
theorem wf_errCode_zero {r : Regs} (hw : r.wf = true) (hp : r.phase ≠ Phase.err) :
    r.errCode = 0#3 :=
  not_not.mp (mt (wf_errCode hw).mp hp)

/-- An accepted `START` leaves well-formed registers (R23, R79). -/
theorem beginConversion_wf {s : State} (hw : s.regs.wf = true) (hp : s.regs.phase = Phase.idle)
    (conv : Imm) : (beginConversion conv s).regs.wf = true :=
  have he : s.regs.errCode = 0#3 := wf_errCode_zero hw (by simp [hp])
  wf_of_active_empty rfl rfl he

/-- An accepted `PIX` leaves well-formed registers (R23, R66). -/
theorem acceptPixel_wf {s : State} (hw : s.regs.wf = true) (hp : s.regs.phase = Phase.active)
    (p : Pair) : (acceptPixel p s).regs.wf = true := by
  have he : s.regs.errCode = 0#3 := wf_errCode_zero hw (by simp [hp])
  obtain hf | hf := fill_lt_or_eq s.regs.fill
  · rw [acceptPixel_of_lt hf, commit_regs]
    refine wf_of_parts (by simp [hp]) (fun j hj hfj => ?_) (by simp [hp]) (by simp [hp, he])
      (by simp [he])
    have hlt : s.regs.fill.toNat < j := by
      simpa only [fill_succ_toNat _ hf, Nat.succ_le_iff] using hfj
    rw [lane_or_inLane hw _ j hj, if_neg hlt.ne', wf_lane hw ⟨j, hj⟩ hlt.le]
  · rw [acceptPixel_of_full hf]
    exact wf_of_active_empty hp rfl he

/-! ### The convention is fixed -/

/-- In phase ACTIVE every word but `CLR` keeps `CONV` (R44). -/
theorem wordStep_conv_of_active {w : CmdWord} {s t : State} (h : WordStep w s t)
    (hp : s.regs.phase = Phase.active) (hclr : decode w ≠ .ok .clr) :
    t.regs.conv = s.regs.conv := by
  cases h with
  | clr hd => exact absurd hd hclr
  | start _ hi => simp [hp] at hi
  | nop | ignored | illegal | startUnknown | startActive | pix | pixInvalid | pixIdle | endRaster
  | endIdle => simp

/-- Settles O14: `START` in each phase, and the word's step by its cases. -/
theorem conventionIsFixedForTheConversion : Obligations.ConventionIsFixedForTheConversion := by
  refine ⟨fun s c hw hp => ?_, fun s w hw hp hclr => ?_, fun s conv hw hp => ?_⟩
  · exact ⟨_, exec_start_of_idle hw hp (inRange_setWidth c), by simp, by simp⟩
  · obtain ⟨t, ht⟩ := runWord_of_wf hw w
    exact ⟨t, ht, wordStep_conv_of_active (wordStep_of_runWord ht) hp (decode_ne_clr w hclr)⟩
  · exact ⟨_, exec_start_of_active hw hp conv, rfl, rfl, rfl⟩

/-! ### Padding -/

/-- Only an accepted `PIX` or `END` can extend `OUT`. -/
theorem wordStep_out {w : CmdWord} {s t : State} (h : WordStep w s t) :
    (∃ v, AcceptsPixel w s v ∧ t = acceptPixel (lowPair v) s) ∨
    (AcceptsEnd w s ∧ t = finishConversion s) ∨ t.out = s.out := by
  cases h with
  | pix hw hp v hv hd => exact .inl ⟨v, ⟨hp, hv, hd⟩, rfl⟩
  | endRaster hw hp hd => exact .inr (.inl ⟨⟨hp, hd⟩, rfl⟩)
  | nop | clr | ignored | illegal | start | startUnknown | startActive | pixInvalid | pixIdle
  | endIdle => simp

/-- A step that emits a byte and takes no `END` takes the fourth pixel of a group (R38). -/
theorem wordStep_byte_of_not_end {w : CmdWord} {s t : State} (h : WordStep w s t)
    (hend : decode w ≠ .ok .endRaster) {b : Byte} (hb : .byte b ∈ t.out.drop s.out.length) :
    s.regs.fill = 3#2 ∧ ∃ v : Imm, v ≤ 3#8 ∧ decode w = .ok (.pix v) := by
  obtain ⟨v, ⟨-, hv, hd⟩, rfl⟩ | ⟨⟨-, hd⟩, -⟩ | hout := wordStep_out h
  · obtain hf | hf := fill_lt_or_eq s.regs.fill
    · simp [acceptPixel_of_lt hf] at hb
    · exact ⟨hf, v, hv, hd⟩
  · exact absurd hd hend
  · simp [hout] at hb

/-- Settles O19: the two cases of `END`, and the word's step by what can extend `OUT`. -/
theorem endPadsMissingLanesWithMappedZero : Obligations.EndPadsMissingLanesWithMappedZero := by
  refine ⟨fun s hw hp hf => ?_, fun s hw hp hf => ?_, fun s t w b ht hend hb => ?_, by decide⟩
  · exact ⟨_, paddedByte s.regs, exec_end_of_active hw hp, finishConversion_out_of_nonempty hf,
      lane_or_pad hw _⟩
  · exact ⟨_, exec_end_of_active hw hp, finishConversion_out_of_empty hf⟩
  · exact wordStep_byte_of_not_end (wordStep_of_runWord ht) hend hb

/-! ### Running the commands of a conversion -/

/-- Every command decodes from its own word (R47 to R55). -/
theorem decode_encode (i : Instr) : decode (encode i) = .ok i := by
  have hfields : opField (encode i) = i.op ∧ immField (encode i) = i.imm :=
    Laws.EncodeFields.fields_of_word i.op i.imm
  obtain ⟨hop, himm⟩ := hfields
  unfold decode
  rw [hop, himm]
  cases i <;> rfl

/-- The step that takes a command's word is the command. -/
theorem runWord_encode (i : Instr) (s : State) : runWord (encode i) s = exec i s := by
  simp [runWord, decode_encode]

/-- One step of a run takes the first command presented. -/
theorem runSteps_presentAll_cons {i : Instr} {is : List Instr} {s t : State}
    (h : exec i (s.presentAll is) = .next t) (n : Nat) :
    runSteps (n + 1) (s.presentAll (i :: is)) = runSteps n t :=
  runSteps_succ (by rw [presentAll_cons, step_present, runWord_encode, h]) n

/-- An accepted pixel leaves alone what the host presents next. -/
theorem acceptPixel_presentAll (p : Pair) (s : State) (is : List Instr) :
    acceptPixel p (s.presentAll is) = (acceptPixel p s).presentAll is := by
  obtain hf | hf := fill_lt_or_eq s.regs.fill
  · rw [acceptPixel_of_lt hf, acceptPixel_of_lt (s := s.presentAll is) hf]; rfl
  · rw [acceptPixel_of_full hf, acceptPixel_of_full (s := s.presentAll is) hf]; rfl

/-- The state after accepted pixels, first one first (R66). -/
def feedPixels (R : List Pair) (s : State) : State := R.foldl (fun t p => acceptPixel p t) s

@[simp] theorem feedPixels_nil (s : State) : feedPixels [] s = s := rfl

@[simp] theorem feedPixels_cons (p : Pair) (R : List Pair) (s : State) :
    feedPixels (p :: R) s = feedPixels R (acceptPixel p s) := rfl

theorem feedPixels_concat (R : List Pair) (p : Pair) (s : State) :
    feedPixels (R ++ [p]) s = acceptPixel p (feedPixels R s) := by
  simp [feedPixels]

/-- In phase ACTIVE, `PIX` commands feed their pixels. -/
theorem runSteps_pixels (R : List Pair) (is : List Instr) (n : Nat) {s : State}
    (hw : s.regs.wf = true) (hp : s.regs.phase = Phase.active) :
    runSteps (R.length + n) (s.presentAll ((R.map fun p => .pix (p.setWidth 8)) ++ is)) =
      runSteps n ((feedPixels R s).presentAll is) := by
  induction R generalizing s with
  | nil => simp
  | cons p R ih =>
    have hexec : ∀ js, exec (.pix (p.setWidth 8)) (s.presentAll js) =
        .next ((acceptPixel p s).presentAll js) := fun js => by
      rw [exec_pix_of_active (s := s.presentAll js) hw hp (inRange_setWidth p),
        lowPair_setWidth, acceptPixel_presentAll]
    rw [List.length_cons, Nat.succ_add, List.map_cons, List.cons_append,
      runSteps_presentAll_cons (hexec _), feedPixels_cons]
    exact ih (acceptPixel_wf hw hp p) (by simp [hp])

/-- The state a conversion of the raster `R` under the convention `c` ends in. -/
def conversionResult (s : State) (c : Pair) (R : List Pair) : State :=
  finishConversion (feedPixels R (beginConversion (c.setWidth 8) s))

@[simp] theorem feedPixels_phase (R : List Pair) (s : State) :
    (feedPixels R s).regs.phase = s.regs.phase := by
  induction R generalizing s with
  | nil => rfl
  | cons p R ih => rw [feedPixels_cons, ih, acceptPixel_phase]

/-- Accepted pixels leave well-formed registers. -/
theorem feedPixels_wf (R : List Pair) {s : State} (hw : s.regs.wf = true)
    (hp : s.regs.phase = Phase.active) : (feedPixels R s).regs.wf = true := by
  induction R generalizing s with
  | nil => exact hw
  | cons p R ih => exact ih (acceptPixel_wf hw hp p) (by simp [hp])

/-- From phase IDLE the commands of `PACK` run to the end of the conversion. -/
theorem runSteps_conversion {s : State} (hw : s.regs.wf = true)
    (hp : s.regs.phase = Phase.idle) (c : Pair) (R : List Pair) :
    runSteps (R.length + 2)
      (s.presentAll (packCommands (c.setWidth 8) (R.map (·.setWidth 8)))) =
      .next (conversionResult s c R) := by
  have hcommands : packCommands (c.setWidth 8) (R.map (·.setWidth 8)) =
      .start (c.setWidth 8) :: ((R.map fun p => .pix (p.setWidth 8)) ++ [.endRaster]) := by
    simp [packCommands]
  have hstart : ∀ js, exec (.start (c.setWidth 8)) (s.presentAll js) =
      .next ((beginConversion (c.setWidth 8) s).presentAll js) := fun js =>
    exec_start_of_idle (s := s.presentAll js) hw hp (inRange_setWidth c)
  have hwb := beginConversion_wf hw hp (c.setWidth 8)
  rw [hcommands, runSteps_presentAll_cons (hstart _) (R.length + 1), runSteps_pixels R _ 1 hwb rfl,
    runSteps_presentAll_cons (exec_end_of_active (feedPixels_wf R hwb rfl) (by simp)),
    runSteps_zero]
  rfl

/-! ### The bytes of the reference function -/

/-- The lanes of an index placed in a lane. -/
theorem lane_inLane (m : Pair) {j k : Nat} (hj : j < 4) (hk : k < 4) :
    lane j (inLane m k) = if j = k then m else 0#2 := by
  split
  · next h => subst h; exact lane_inLane_self m ⟨j, hj⟩
  · next h => exact lane_inLane_ne m ⟨j, hj⟩ ⟨k, hk⟩ (by simpa using h)

/-- The lanes of a byte of the reference function (R35, R61). -/
theorem lane_packByte (R : List Pair) (m : Pair → Pair) (i : Nat) {j : Nat} (hj : j < 4) :
    lane j (packByte R m i) = m (rasterPixel R (4 * i + j)) := by
  simp only [packByte, lane_or, lane_inLane _ hj, Nat.reduceLT]
  interval_cases j <;> simp

/-- A byte of the reference function is a function of its four pixels (R46). -/
theorem packByte_congr {R R' : List Pair} {i : Nat}
    (h : ∀ j < 4, rasterPixel R (4 * i + j) = rasterPixel R' (4 * i + j)) (m : Pair → Pair) :
    packByte R m i = packByte R' m i :=
  byte_ext fun j hj => by rw [lane_packByte R m i hj, lane_packByte R' m i hj, h j hj]

theorem rasterPixel_append_of_lt {R : List Pair} {k : Nat} (hk : k < R.length) (R' : List Pair) :
    rasterPixel (R ++ R') k = rasterPixel R k :=
  List.getD_append R R' 0#2 k hk

@[simp] theorem rasterPixel_concat_length (R : List Pair) (p : Pair) :
    rasterPixel (R ++ [p]) R.length = p := by
  simp [rasterPixel]

theorem rasterPixel_of_length_le {R : List Pair} {k : Nat} (hk : R.length ≤ k) :
    rasterPixel R k = 0#2 :=
  List.getD_eq_default R 0#2 hk

/-- The bytes of the complete groups of a raster do not depend on what follows it. -/
theorem packByte_append_of_lt {R : List Pair} {i : Nat} (hi : i < R.length / 4) (R' : List Pair)
    (m : Pair → Pair) : packByte (R ++ R') m i = packByte R m i :=
  packByte_congr (fun j hj => rasterPixel_append_of_lt (by omega) R') m

/-- The first `k` bytes of the reference function, as events. -/
def packEvents (R : List Pair) (c : Pair) (k : Nat) : List Event :=
  (List.range k).map fun i => .byte (packByte R (mapIndex c) i)

theorem packEvents_succ (R : List Pair) (c : Pair) (k : Nat) :
    packEvents R c (k + 1) = packEvents R c k ++ [.byte (packByte R (mapIndex c) k)] := by
  simp [packEvents, List.range_succ]

theorem packEvents_append (R R' : List Pair) (c : Pair) :
    packEvents (R ++ R') c (R.length / 4) = packEvents R c (R.length / 4) :=
  List.map_congr_left fun i hi => by
    rw [packByte_append_of_lt (List.mem_range.mp hi) R' (mapIndex c)]

theorem map_byte_pack (R : List Pair) (c : Pair) :
    (pack R (mapIndex c)).map Event.byte = packEvents R c (packLength R.length) := by
  simp [pack, packEvents]

/-! ### The invariant of the pixels fed -/

/-- `t` is `s` with a conversion under `c` begun and the pixels of `R` fed: the complete groups are
in `OUT`, the pixels of the incomplete one are in `ACC`. -/
structure Packing (s : State) (c : Pair) (R : List Pair) (t : State) : Prop where
  wf : t.regs.wf = true
  phase : t.regs.phase = Phase.active
  conv : t.regs.conv = c
  fill : t.regs.fill.toNat = R.length % 4
  lanes : ∀ j < R.length % 4,
    lane j t.regs.acc = mapIndex c (rasterPixel R (4 * (R.length / 4) + j))
  out : t.out = s.out ++ packEvents R c (R.length / 4)

/-- The accepted `START` begins with no pixel fed. -/
theorem packing_beginConversion {s : State} (hw : s.regs.wf = true)
    (hp : s.regs.phase = Phase.idle) (c : Pair) :
    Packing s c [] (beginConversion (c.setWidth 8) s) where
  wf := beginConversion_wf hw hp _
  phase := rfl
  conv := by simp
  fill := rfl
  lanes := by simp
  out := by simp [packEvents]

section
variable {s t : State} {c : Pair} {R : List Pair}

/-- The byte a further pixel makes holds the pixels of its group up to that one. -/
theorem Packing.lane_accepted (h : Packing s c R t) (p : Pair) {j : Nat} (hj : j ≤ R.length % 4) :
    lane j (t.regs.acc ||| inLane (mapIndex t.regs.conv p) t.regs.fill.toNat) =
      mapIndex c (rasterPixel (R ++ [p]) (4 * (R.length / 4) + j)) := by
  rw [lane_or_inLane h.wf _ j (by omega), h.fill, h.conv]
  split
  · next hlast => rw [hlast, Nat.div_add_mod, rasterPixel_concat_length]
  · next hne => rw [h.lanes j (by omega), rasterPixel_append_of_lt (by omega)]

/-- An accepted pixel extends the raster fed by one pixel. -/
theorem Packing.concat (h : Packing s c R t) (p : Pair) :
    Packing s c (R ++ [p]) (acceptPixel p t) := by
  have hconcat : (R ++ [p]).length = R.length + 1 := List.length_append
  obtain hf | hf := fill_lt_or_eq t.regs.fill
  · have hlt : R.length % 4 < 3 := h.fill ▸ BitVec.lt_def.mp hf
    have hdiv : (R ++ [p]).length / 4 = R.length / 4 := by omega
    have hmod : (R ++ [p]).length % 4 = R.length % 4 + 1 := by omega
    refine ⟨acceptPixel_wf h.wf h.phase p, by simp [h.phase], by simp [h.conv], ?_, ?_, ?_⟩
    · rw [acceptPixel_of_lt hf, hmod, ← h.fill]
      exact fill_succ_toNat _ hf
    · rw [acceptPixel_of_lt hf, hmod, hdiv]
      exact fun j hj => h.lane_accepted p (Nat.lt_succ_iff.mp hj)
    · rw [acceptPixel_of_lt hf, hdiv, packEvents_append, commit_out, List.append_nil, h.out]
  · have hfull : t.regs.fill.toNat = 3 := congrArg BitVec.toNat hf
    have hlen : R.length % 4 = 3 := h.fill.symm.trans hfull
    have hdiv : (R ++ [p]).length / 4 = R.length / 4 + 1 := by omega
    have hmod : (R ++ [p]).length % 4 = 0 := by omega
    have hbyte : t.regs.acc ||| inLane (mapIndex t.regs.conv p) 3 =
        packByte (R ++ [p]) (mapIndex c) (R.length / 4) := byte_ext fun j hj => by
      rw [← hfull, h.lane_accepted p (by omega), lane_packByte _ _ _ hj]
    refine ⟨acceptPixel_wf h.wf h.phase p, by simp [h.phase], by simp [h.conv], ?_, ?_, ?_⟩
    · rw [acceptPixel_of_full hf, hmod]
      rfl
    · rw [hmod]
      exact fun j hj => absurd hj j.not_lt_zero
    · rw [acceptPixel_of_full hf, hdiv, packEvents_succ, packEvents_append, commit_out, h.out,
        hbyte, List.append_assoc]

/-- The padded byte is the reference function's byte of the incomplete group (R38, R61). -/
theorem Packing.paddedByte_eq (h : Packing s c R t) :
    paddedByte t.regs = packByte R (mapIndex c) (R.length / 4) :=
  byte_ext fun j hj => by
    rw [paddedByte, lane_or_pad h.wf _ j hj, lane_packByte _ _ _ hj, h.fill, h.conv]
    split
    · next hlt => exact h.lanes j hlt
    · next hge => rw [rasterPixel_of_length_le (by omega)]

/-- `END` completes the reference function's bytes (R69). -/
theorem Packing.finishConversion_out (h : Packing s c R t) :
    (finishConversion t).out = s.out ++ (pack R (mapIndex c)).map Event.byte ++ [.done] := by
  have hfill := h.fill
  rw [map_byte_pack]
  by_cases hf : t.regs.fill = 0#2
  · have hlen : packLength R.length = R.length / 4 := by
      rw [hf, BitVec.toNat_ofNat] at hfill
      rw [packLength]
      omega
    rw [finishConversion_out_of_empty hf, h.out, hlen]
  · have hlen : packLength R.length = R.length / 4 + 1 := by
      have hne : t.regs.fill.toNat ≠ 0 := fun h0 => hf (BitVec.eq_of_toNat_eq h0)
      rw [packLength]
      omega
    rw [finishConversion_out_of_nonempty hf, h.out, hlen, h.paddedByte_eq, packEvents_succ]
    simp

end

/-- Pixels fed after an accepted `START` keep the invariant. -/
theorem packing_feedPixels {s : State} (hw : s.regs.wf = true) (hp : s.regs.phase = Phase.idle)
    (c : Pair) (R : List Pair) :
    Packing s c R (feedPixels R (beginConversion (c.setWidth 8) s)) := by
  induction R using List.reverseRecOn with
  | nil => exact packing_beginConversion hw hp c
  | append_singleton R p ih =>
    rw [feedPixels_concat]
    exact ih.concat p

/-- A conversion emits the reference function's bytes, then `Done` (R69). -/
theorem conversionResult_out {s : State} (hw : s.regs.wf = true)
    (hp : s.regs.phase = Phase.idle) (c : Pair) (R : List Pair) :
    (conversionResult s c R).out = s.out ++ (pack R (mapIndex c)).map Event.byte ++ [.done] :=
  (packing_feedPixels hw hp c R).finishConversion_out

/-! ### The number of bytes and the locality of each -/

theorem pack_length (R : List Pair) (m : Pair → Pair) :
    (pack R m).length = packLength R.length := by
  simp [pack]

/-- Settles O43: the bytes are the reference function's, and there are `ceil(n/4)` of them. -/
theorem conversionEmitsCeilQuarterBytes : Obligations.ConversionEmitsCeilQuarterBytes := by
  intro s c R hw hp
  have hlen : (pack R (mapIndex c)).length = (R.length + 3) / 4 := pack_length R _
  exact ⟨_, pack R (mapIndex c), runSteps_conversion hw hp c R, conversionResult_out hw hp c R,
    by omega, by omega⟩

/-- Byte `i` of a conversion is the reference function's. -/
theorem conversionResult_out_getElem? {s : State} (hw : s.regs.wf = true)
    (hp : s.regs.phase = Phase.idle) (c : Pair) {R : List Pair} {i : Nat} (hi : 4 * i < R.length) :
    (conversionResult s c R).out[s.out.length + i]? = some (.byte (packByte R (mapIndex c) i)) := by
  have hlt : i < packLength R.length := by rw [packLength]; omega
  rw [conversionResult_out hw hp, List.append_assoc,
    List.getElem?_append_right (Nat.le_add_right _ _), Nat.add_sub_cancel_left,
    List.getElem?_append_left (by simpa [pack_length] using hlt)]
  simp [pack, hlt]

/-- Settles O44: byte `i` is the reference function's in both runs, a function of those pixels. -/
theorem eachByteIsLocal : Obligations.EachByteIsLocal := by
  intro s s' c R R' i hw hp hw' hp' hi hi' hpixels
  refine ⟨_, _, packByte R (mapIndex c) i, runSteps_conversion hw hp c R,
    runSteps_conversion hw' hp' c R', conversionResult_out_getElem? hw hp c hi, ?_⟩
  rw [packByte_congr hpixels]
  exact conversionResult_out_getElem? hw' hp' c hi'

end Sys2Proof.Machine

/-!
PROOFS. The encoding family: the opcode map, the words of each command, the illegal words and the
assembler's abbreviations (spec 30_encoding.md R50 to R60). Each is read off two facts: a word is
determined by its two fields, and the decoder accepts exactly the words `encode` makes.
-/

namespace Sys2Proof

/-! ### A word and its fields -/

/-- A word is its two fields (R47). -/
theorem word_of_fields (w : CmdWord) :
    (opField w).setWidth 12 <<< 8 ||| (immField w).setWidth 12 = w := by
  apply BitVec.eq_of_getLsbD_eq
  intro k hk
  obtain h | h := Nat.lt_or_ge k 8
  · simp [opField, immField, h, hk]
  · have hle : k - 8 < 4 := by omega
    simp [opField, immField, hk, hle, Nat.not_lt.2 h, Nat.add_sub_cancel' h]

theorem opField_toNat (w : CmdWord) : (opField w).toNat = w.toNat / 256 := by
  have hw : w.toNat < 4096 := w.isLt
  rw [opField, BitVec.extractLsb'_toNat, Nat.shiftRight_eq_div_pow]
  omega

theorem immField_toNat (w : CmdWord) : (immField w).toNat = w.toNat % 256 := by
  simp [immField]

theorem immField_eq_setWidth (w : CmdWord) : immField w = w.setWidth 8 :=
  (BitVec.setWidth_eq_extractLsb' (by decide)).symm

/-- The opcode map's mask `0xF00` keeps the field `op` and clears the operand (R50). -/
theorem and_opMask (w : CmdWord) : w &&& 0xF00#12 = (opField w).setWidth 12 <<< 8 := by
  have hmask : ∀ k < 12, (0xF00#12).getLsbD k = decide (8 ≤ k) := by decide
  apply BitVec.eq_of_getLsbD_eq
  intro k hk
  rw [BitVec.getLsbD_and, hmask k hk]
  obtain h | h := Nat.lt_or_ge k 8
  · simp [h]
  · have hle : k - 8 < 4 := by omega
    simp [opField, hk, h, hle, Nat.not_lt.2 h, Nat.add_sub_cancel' h]

/-- A word matches a row of mask `0xF00` exactly when its field `op` is the row's. -/
theorem and_opMask_eq_iff (w : CmdWord) (op : BitVec 4) :
    w &&& 0xF00#12 = op.setWidth 12 <<< 8 ↔ opField w = op := by
  have hinj : ∀ a b : BitVec 4, a.setWidth 12 <<< 8 = b.setWidth 12 <<< 8 → a = b := by decide
  rw [and_opMask]
  exact ⟨hinj _ _, fun h => by rw [h]⟩

theorem eq_encode_iff_fields (w : CmdWord) (i : Instr) :
    w = encode i ↔ opField w = i.op ∧ immField w = i.imm := by
  constructor
  · rintro rfl
    exact Laws.EncodeFields.fields_of_word i.op i.imm
  · rintro ⟨hop, himm⟩
    rw [encode, ← hop, ← himm, word_of_fields]

/-! ### The words the decoder accepts -/

/-- A command the decoder reads has the word's fields (R50). -/
theorem fields_of_decode {w : CmdWord} {i : Instr} (h : decode w = .ok i) :
    opField w = i.op ∧ immField w = i.imm := by
  unfold decode noOperand at h
  split_ifs at h <;> cases h
  · exact ⟨‹_›, ‹_›⟩
  · exact ⟨‹_›, rfl⟩
  · exact ⟨‹_›, rfl⟩
  · exact ⟨‹_›, ‹_›⟩
  · exact ⟨‹_›, ‹_›⟩

/-- The decoder accepts exactly the words `encode` makes, each as the command it was made from. -/
theorem decode_eq_ok_iff (w : CmdWord) (i : Instr) : decode w = .ok i ↔ w = encode i :=
  ⟨fun h => (eq_encode_iff_fields w i).2 (fields_of_decode h),
    fun h => h ▸ Machine.decode_encode i⟩

theorem encode_start (conv : Imm) : encode (.start conv) = 0x100#12 ||| conv.setWidth 12 := rfl

theorem encode_pix (v : Imm) : encode (.pix v) = 0x200#12 ||| v.setWidth 12 := rfl

theorem encode_endRaster : encode .endRaster = 0x300#12 := rfl

/-- Settles O6: the word of each command is what `encode` computes. -/
theorem eachCommandIsSpelledByItsWord : Obligations.EachCommandIsSpelledByItsWord := fun w =>
  ⟨decode_eq_ok_iff w .nop, decode_eq_ok_iff w .endRaster, decode_eq_ok_iff w .clr,
    fun conv => decode_eq_ok_iff w (.start conv), fun v => decode_eq_ok_iff w (.pix v)⟩

/-- A word is a command exactly when it matches the row of the command's `op` and has the command's
operand (R50). -/
theorem decode_eq_ok_iff_row (w : CmdWord) (i : Instr) :
    decode w = .ok i ↔ w &&& 0xF00#12 = i.op.setWidth 12 <<< 8 ∧ i.imm = w.setWidth 8 := by
  rw [decode_eq_ok_iff, eq_encode_iff_fields, and_opMask_eq_iff, immField_eq_setWidth,
    eq_comm (a := i.imm)]

/-- An illegal word is one that is no command's (R56). -/
theorem exists_decode_eq_error_iff (w : CmdWord) :
    (∃ why, decode w = .error why) ↔ ∀ i, decode w ≠ .ok i := by
  cases decode w <;> simp

/-- The mask `0xFFF` keeps the whole word (R50). -/
theorem and_fullMask (w : CmdWord) : w &&& 0xFFF#12 = w := BitVec.and_allOnes

/-- Settles O5: the rows with an operand by their fields, the others by their one word, and the
illegal words as the ones in no row. -/
theorem decodeMatchesOpcodeMap : Obligations.DecodeMatchesOpcodeMap := by
  intro w
  obtain ⟨hnop, hend, hclr, -, -⟩ := eachCommandIsSpelledByItsWord w
  have hstart (conv : Imm) :
      decode w = .ok (.start conv) ↔ w &&& 0xF00#12 = 0x100#12 ∧ conv = w.setWidth 8 :=
    decode_eq_ok_iff_row w (.start conv)
  have hpix (v : Imm) : decode w = .ok (.pix v) ↔ w &&& 0xF00#12 = 0x200#12 ∧ v = w.setWidth 8 :=
    decode_eq_ok_iff_row w (.pix v)
  rw [and_fullMask]
  refine ⟨hnop, hstart, hpix, hend, hclr, (exists_decode_eq_error_iff w).trans ⟨fun h => ?_, ?_⟩⟩
  · exact ⟨mt hnop.2 (h _), fun hw => h _ ((hstart _).2 ⟨hw, rfl⟩),
      fun hw => h _ ((hpix _).2 ⟨hw, rfl⟩), mt hend.2 (h _), mt hclr.2 (h _)⟩
  · rintro ⟨h0, h1, h2, h3, h4⟩ i
    cases i with
    | nop => exact mt hnop.1 h0
    | start conv => exact fun hd => h1 ((hstart conv).1 hd).1
    | pix v => exact fun hd => h2 ((hpix v).1 hd).1
    | endRaster => exact mt hend.1 h3
    | clr => exact mt hclr.1 h4

/-! ### The illegal words -/

/-- The field `op` gives the 256 words a word is among. -/
theorem opField_eq_iff (w : CmdWord) (op : BitVec 4) :
    opField w = op ↔ w.toNat / 256 = op.toNat := by
  rw [← opField_toNat, BitVec.toNat_inj]

theorem immField_eq_zero_iff (w : CmdWord) : immField w = 0#8 ↔ w.toNat % 256 = 0 := by
  rw [← immField_toNat, ← BitVec.toNat_inj]; rfl

/-- The four classes of illegal words as ranges of words (R56): with the fields as quotient and
remainder by 256, each branch of the decoder is arithmetic on the word's number. -/
theorem decode_eq_error_iff_range (w : CmdWord) :
    (decode w = .error .reservedOp ↔ 0x500#12 ≤ w) ∧
    (decode w = .error .nopOperand ↔ 0x001#12 ≤ w ∧ w ≤ 0x0FF#12) ∧
    (decode w = .error .endOperand ↔ 0x301#12 ≤ w ∧ w ≤ 0x3FF#12) ∧
    (decode w = .error .clrOperand ↔ 0x401#12 ≤ w ∧ w ≤ 0x4FF#12) := by
  simp only [decode, noOperand, opField_eq_iff, immField_eq_zero_iff, BitVec.le_def,
    BitVec.reduceToNat]
  split_ifs <;> simp only [reduceCtorEq, true_iff, false_iff, Except.error.injEq] <;> omega

/-- The words of the five commands: `0x000`, `0x100` to `0x300`, and `0x400` (R51 to R55). -/
theorem exists_decode_eq_ok_iff_range (w : CmdWord) :
    (∃ i, decode w = .ok i) ↔
      w.toNat = 0 ∨ (256 ≤ w.toNat ∧ w.toNat ≤ 768) ∨ w.toNat = 1024 := by
  obtain ⟨hop, hnop, hend, hclr⟩ := decode_eq_error_iff_range w
  simp only [BitVec.le_def, BitVec.reduceToNat] at hop hnop hend hclr
  cases hd : decode w with
  | ok i =>
    simp only [hd, reduceCtorEq, false_iff] at hop hnop hend hclr
    simp only [Except.ok.injEq, exists_eq', true_iff]
    omega
  | error why =>
    simp only [reduceCtorEq, exists_false, false_iff]
    cases why <;> simp only [hd, true_iff] at hop hnop hend hclr <;> omega

/-- The 12-bit rows of the opcode table that hold a command, by their numbers. -/
theorem decodeTableWord_isSome_iff_range {n : Nat} (hn : n < 4096) :
    (decodeTableWord 12 n).isSome = true ↔ n = 0 ∨ (256 ≤ n ∧ n ≤ 768) ∨ n = 1024 := by
  have hword : wordOfBits 12 n = some (BitVec.ofNat 12 n) := by
    simp [wordOfBits, Config.cmdW, Nat.mod_eq_of_lt hn, hn]
  have hrange := exists_decode_eq_ok_iff_range (BitVec.ofNat 12 n)
  rw [BitVec.toNat_ofNat, Nat.mod_eq_of_lt hn] at hrange
  rw [decodeTableWord, hword, ← hrange]
  cases hd : decode (BitVec.ofNat 12 n) <;> simp [hd]

theorem filter_legal :
    ((Finset.range 4096).filter fun n => (decodeTableWord 12 n).isSome = true) =
      insert 0 (insert 1024 (Finset.Icc 256 768)) := by
  ext n
  rw [Finset.mem_filter, Finset.mem_range, and_congr_right decodeTableWord_isSome_iff_range]
  simp only [Finset.mem_insert, Finset.mem_Icc]
  omega

theorem countP_legal :
    ((List.range 4096).countP fun n => (decodeTableWord 12 n).isSome) = 515 := by
  have hcount := Nat.count_eq_card_filter_range (fun n => (decodeTableWord 12 n).isSome = true) 4096
  rw [filter_legal] at hcount
  simpa [Nat.count] using hcount

theorem length_eq_countP_isSome_add_countP_isNone {α β : Type} (f : α → Option β) (l : List α) :
    l.length = (l.countP fun a => (f a).isSome) + l.countP fun a => (f a).isNone := by
  simpa only [Bool.not_eq_true, Option.isSome_eq_false_iff, Bool.decide_eq_true] using
    List.length_eq_countP_add_countP (l := l) fun a => (f a).isSome

/-- Every number below 4096 that is not legal is illegal. -/
theorem countP_illegal :
    ((List.range 4096).countP fun n => (decodeTableWord 12 n).isNone) = 3581 := by
  have htotal := length_eq_countP_isSome_add_countP_isNone (decodeTableWord 12) (List.range 4096)
  rw [countP_legal, List.length_range] at htotal
  omega

end Sys2Proof

namespace Sys2Proof.Machine

open Sys2Proof

/-- Settles O7: the ranges, the count of the legal numbers and its complement, and the two cases of
`WordStep` an illegal word has. -/
theorem illegalWordsRaiseIllegalCommand : Obligations.IllegalWordsRaiseIllegalCommand := by
  refine ⟨decode_eq_error_iff_range, countP_illegal, countP_legal, fun s w why hw hd => ?_⟩
  have hclr : decode w ≠ .ok .clr := by simp [hd]
  exact ⟨fun hp => runWord_of_wordStep (.illegal hw hp why hd),
    fun hp => runWord_of_wordStep (.ignored hw hp hclr)⟩

/-! ### The abbreviations -/

@[simp] theorem operand_toNat (r : Imm) : operand r.toNat = some r := by
  have hr : r.toNat < 2 ^ Config.immW := r.isLt
  simp [operand, hr]

theorem mapM_operand_toNat (raster : List Imm) :
    (raster.map BitVec.toNat).mapM operand = some raster := by
  induction raster with
  | nil => rfl
  | cons r rs ih => simp [ih]

theorem map_encode_packCommands (conv : Imm) (raster : List Imm) :
    (packCommands conv raster).map encode =
      [0x100#12 ||| conv.setWidth 12] ++ raster.map (fun r => 0x200#12 ||| r.setWidth 12) ++
        [0x300#12] := by
  simp [packCommands, encode_start, encode_endRaster, Function.comp_def, encode_pix]

/-- Settles O10: `PACK` by the words of its commands and the range check its named operand and its
8-bit pixels pass; the rest by evaluation. -/
theorem abbreviationsExpand : Obligations.AbbreviationsExpand := by
  refine ⟨fun conv raster => ⟨map_encode_packCommands conv raster, by simp [packCommands]⟩,
    fun c raster => ?_, rfl, rfl, rfl, rfl⟩
  rw [SourceLine.assemble, SourceLine.commands, mapM_operand_toNat]
  rfl

end Sys2Proof.Machine

/-!
PROOFS. The pixel packer family: `PIX` and `END`, completely, the lane an accepted pixel fills, the
padding, and that a step is a function of the registers and the word (spec 40_pixel_packer.md R63
to R68, R72). An accepted command is one `commit`, whose fields give the next state.
-/

namespace Sys2Proof.Machine

open Sys2Proof

/-! ### `PIX` -/

/-- A commit that emits nothing leaves `OUT` alone and the lines low (R22). -/
theorem commit_nil (r : Regs) (s : State) :
    commit r [] s = { s with regs := r, lines := Lines.low } := by simp [commit]

/-- `PIX` in phase ERR is ignored (R96). -/
theorem exec_pix_of_err {s : State} (hw : s.regs.wf = true) (hp : s.regs.phase = Phase.err)
    (v : Imm) : exec (.pix v) s = .next (quiet s) :=
  byPhase_of_err hw hp _ _

/-- `PIX` in phase IDLE is out of sequence (R66). -/
theorem exec_pix_of_idle {s : State} (hw : s.regs.wf = true) (hp : s.regs.phase = Phase.idle)
    (v : Imm) : exec (.pix v) s = .next (raise .sequenceError s) :=
  byPhase_of_idle hw hp _ _

/-- `PIX` in phase ACTIVE with an operand above 3 (R65, R66). -/
theorem exec_pix_of_invalid {s : State} (hw : s.regs.wf = true)
    (hp : s.regs.phase = Phase.active) {v : Imm} (hv : inRange v = false) :
    exec (.pix v) s = .next (raise .invalidPixelValue s) :=
  (byPhase_of_active hw hp _ _).trans (by simp [hv])

/-- Settles O15: one lemma per outcome; the accepted pixel by the two cases of `FILL`. -/
theorem pixFeedsOnePixel : Obligations.PixFeedsOnePixel := by
  intro s v hw
  refine ⟨fun hp hv hf => ?_, fun hp hv hf => ?_, fun hp => exec_pix_of_err hw hp v,
    fun hp => exec_pix_of_idle hw hp v,
    fun hp hv => exec_pix_of_invalid hw hp ((inRange_eq_false_iff v).2 hv)⟩
  · rw [exec_pix_of_active hw hp ((inRange_iff v).2 hv), acceptPixel_of_lt hf, commit_nil,
      lowPair_eq_setWidth]
    rfl
  · rw [exec_pix_of_active hw hp ((inRange_iff v).2 hv), acceptPixel_of_full hf,
      lowPair_eq_setWidth]
    rfl

/-- Settles O16: the byte is `ACC` with the mapped index in lane `FILL`, wherever it goes. -/
theorem pixFillsItsLaneOnly : Obligations.PixFillsItsLaneOnly := by
  intro s p hw hp
  refine ⟨acceptPixel p s, s.regs.acc ||| inLane (mapIndex s.regs.conv p) s.regs.fill.toNat,
    ?_, fun hf => ?_, fun hf => ?_, lane_or_inLane hw _⟩
  · rw [exec_pix_of_active hw hp (inRange_setWidth p), lowPair_setWidth]
  · simp [acceptPixel_of_lt hf]
  · simp [acceptPixel_of_full hf, hf]

/-! ### `END` and its padding -/

/-- The padding as a multiple of the padding value (R67). -/
theorem pad_eq_mul : ∀ z : Pair, pad z 1 = z.setWidth 8 * 0x54#8 ∧
    pad z 2 = z.setWidth 8 * 0x50#8 ∧ pad z 3 = z.setWidth 8 * 0x40#8 := by decide

/-- Settles O17: the multiples for each of the four padding values; the ROM entries and the padded
byte by evaluation. -/
theorem padIsTheMappedZeroRepeated : Obligations.PadIsTheMappedZeroRepeated :=
  ⟨pad_eq_mul, rfl, rfl, rfl, rfl, fun _ => rfl⟩

/-- `END` in phase ERR is ignored (R96). -/
theorem exec_end_of_err {s : State} (hw : s.regs.wf = true) (hp : s.regs.phase = Phase.err) :
    exec .endRaster s = .next (quiet s) :=
  byPhase_of_err hw hp _ _

/-- `END` in phase IDLE is out of sequence (R68). -/
theorem exec_end_of_idle {s : State} (hw : s.regs.wf = true) (hp : s.regs.phase = Phase.idle) :
    exec .endRaster s = .next (raise .sequenceError s) :=
  byPhase_of_idle hw hp _ _

/-- The two ways an accepted `END` leaves the state (R68). -/
theorem finishConversion_of_nonempty {s : State} (hf : s.regs.fill ≠ 0#2) :
    finishConversion s =
      commit { s.regs with phase := Phase.idle, acc := 0x00#8, fill := 0#2 }
        [.byte (paddedByte s.regs), .done] s := by
  rw [finishConversion, if_neg hf]

theorem finishConversion_of_empty {s : State} (hf : s.regs.fill = 0#2) :
    finishConversion s =
      commit { s.regs with phase := Phase.idle, acc := 0x00#8, fill := 0#2 } [.done] s := by
  rw [finishConversion, if_pos hf]

/-- Settles O18: one lemma per outcome; the accepted `END` by the two cases of `FILL`. -/
theorem endPadsAndFinishes : Obligations.EndPadsAndFinishes := by
  refine fun s hw => ⟨fun hp hf => ?_, fun hp hf => ?_, exec_end_of_err hw, exec_end_of_idle hw⟩
  · rw [exec_end_of_active hw hp, finishConversion_of_nonempty hf]
    rfl
  · rw [exec_end_of_active hw hp, finishConversion_of_empty hf]
    rfl

/-! ### A step is a function of the registers and the word -/

/-- The state with these registers, no history and nothing presented. -/
def State.ofRegs (r : Regs) : State :=
  { regs := r, lines := Lines.low, out := [], inputs := [] }

/-- The operation `f` commits what it commits from the bare registers: it reads no history, no lines
and no inputs (R72). -/
def CommitsFromRegs (f : State → State) : Prop :=
  ∀ s, f s = commit (f (.ofRegs s.regs)).regs (f (.ofRegs s.regs)).out s

theorem quiet_commitsFromRegs : CommitsFromRegs quiet := fun s => (commit_nil s.regs s).symm

theorem recover_commitsFromRegs : CommitsFromRegs recover := fun s => (commit_nil Regs.reset s).symm

theorem raise_commitsFromRegs (e : RpkError) : CommitsFromRegs (raise e) :=
  fun s => (commit_nil (raise e s).regs s).symm

theorem beginConversion_commitsFromRegs (conv : Imm) : CommitsFromRegs (beginConversion conv) :=
  fun _ => rfl

theorem acceptPixel_commitsFromRegs (p : Pair) : CommitsFromRegs (acceptPixel p) := fun s => by
  obtain hf | hf := fill_lt_or_eq s.regs.fill
  · rw [acceptPixel_of_lt hf, acceptPixel_of_lt (s := .ofRegs s.regs) hf]; rfl
  · rw [acceptPixel_of_full hf, acceptPixel_of_full (s := .ofRegs s.regs) hf]; rfl

theorem finishConversion_commitsFromRegs : CommitsFromRegs finishConversion := fun _ => rfl

/-- From states with the same registers such an operation has the same effect. -/
theorem CommitsFromRegs.effect_eq {f : State → State} (h : CommitsFromRegs f) {s s' : State}
    (hr : s.regs = s'.regs) :
    ∃ evs, (f s').regs = (f s).regs ∧ (f s').lines = (f s).lines ∧
      (f s).out = s.out ++ evs ∧ (f s').out = s'.out ++ evs := by
  rw [h s, h s', hr]
  exact ⟨_, rfl, rfl, rfl, rfl⟩

/-- The registers and the word choose the operation of the step (R72, R85). -/
theorem WordStep.operation {w : CmdWord} {s t : State} (h : WordStep w s t) :
    ∃ f, CommitsFromRegs f ∧ t = f s ∧ ∀ s', s.regs = s'.regs → WordStep w s' (f s') := by
  cases h with
  | nop hd => exact ⟨_, quiet_commitsFromRegs, rfl, fun _ _ => .nop hd⟩
  | clr hd => exact ⟨_, recover_commitsFromRegs, rfl, fun _ _ => .clr hd⟩
  | ignored hw hp hd =>
    exact ⟨_, quiet_commitsFromRegs, rfl, fun _ hr => .ignored (hr ▸ hw) (hr ▸ hp) hd⟩
  | illegal hw hp why hd =>
    exact ⟨_, raise_commitsFromRegs _, rfl, fun _ hr => .illegal (hr ▸ hw) (hr ▸ hp) why hd⟩
  | start hw hp conv hc hd =>
    exact ⟨_, beginConversion_commitsFromRegs conv, rfl,
      fun _ hr => .start (hr ▸ hw) (hr ▸ hp) conv hc hd⟩
  | startUnknown hw hp conv hc hd =>
    exact ⟨_, raise_commitsFromRegs _, rfl,
      fun _ hr => .startUnknown (hr ▸ hw) (hr ▸ hp) conv hc hd⟩
  | startActive hw hp conv hd =>
    exact ⟨_, raise_commitsFromRegs _, rfl, fun _ hr => .startActive (hr ▸ hw) (hr ▸ hp) conv hd⟩
  | pix hw hp v hv hd =>
    exact ⟨_, acceptPixel_commitsFromRegs _, rfl, fun _ hr => .pix (hr ▸ hw) (hr ▸ hp) v hv hd⟩
  | pixInvalid hw hp v hv hd =>
    exact ⟨_, raise_commitsFromRegs _, rfl, fun _ hr => .pixInvalid (hr ▸ hw) (hr ▸ hp) v hv hd⟩
  | pixIdle hw hp v hd =>
    exact ⟨_, raise_commitsFromRegs _, rfl, fun _ hr => .pixIdle (hr ▸ hw) (hr ▸ hp) v hd⟩
  | endRaster hw hp hd =>
    exact ⟨_, finishConversion_commitsFromRegs, rfl,
      fun _ hr => .endRaster (hr ▸ hw) (hr ▸ hp) hd⟩
  | endIdle hw hp hd =>
    exact ⟨_, raise_commitsFromRegs _, rfl, fun _ hr => .endIdle (hr ▸ hw) (hr ▸ hp) hd⟩

/-- Settles O25: both states take the same operation, which commits from the registers. -/
theorem stepDependsOnRegistersAndWordOnly : Obligations.StepDependsOnRegistersAndWordOnly := by
  intro s s' t w hr ht
  obtain ⟨f, hf, rfl, hstep⟩ := (wordStep_of_runWord ht).operation
  obtain ⟨evs, heffect⟩ := hf.effect_eq hr
  exact ⟨f s', evs, runWord_of_wordStep (hstep s' hr), heffect⟩

end Sys2Proof.Machine

/-!
PROOFS. The palette mapper family: `START`, completely, and that two conventions with the same table
run every conversion alike but for the value in `CONV` (spec 41_palette_mapper.md R75, R79).
-/

namespace Sys2Proof.Machine

open Sys2Proof

/-! ### `START` -/

/-- `START` in phase IDLE with an operand above 3 (R79, R81). -/
theorem exec_start_of_unknown {s : State} (hw : s.regs.wf = true)
    (hp : s.regs.phase = Phase.idle) {conv : Imm} (hc : inRange conv = false) :
    exec (.start conv) s = .next (raise .unknownConvention s) :=
  (byPhase_of_idle hw hp _ _).trans (by simp [hc])

/-- `START` in phase ERR is ignored (R96). -/
theorem exec_start_of_err {s : State} (hw : s.regs.wf = true) (hp : s.regs.phase = Phase.err)
    (conv : Imm) : exec (.start conv) s = .next (quiet s) :=
  byPhase_of_err hw hp _ _

/-- The next state of an accepted `START` (R79): `ERRCODE`, which it does not write, is zero
where no error is pending. -/
theorem beginConversion_of_errCode_zero {s : State} (he : s.regs.errCode = 0#3) (conv : Imm) :
    beginConversion conv s = { s with
      regs := { phase := Phase.active, conv := conv.setWidth 2, acc := 0x00#8, fill := 0#2,
                errCode := 0#3 }
      lines := Lines.low } := by
  rw [beginConversion, commit_nil, lowPair_eq_setWidth, ← he]

/-- Settles O13: one lemma per outcome; in the accepted one the phase fixes `ERRCODE`. -/
theorem startBeginsConversion : Obligations.StartBeginsConversion := by
  intro s conv hw
  refine ⟨fun hp hc => ?_, fun hp => exec_start_of_err hw hp conv,
    fun hp => exec_start_of_active hw hp conv,
    fun hp hc => exec_start_of_unknown hw hp ((inRange_eq_false_iff conv).2 hc)⟩
  have he : s.regs.errCode = 0#3 := wf_errCode_zero hw (by simp [hp])
  rw [exec_start_of_idle hw hp ((inRange_iff conv).2 hc), beginConversion_of_errCode_zero he]
  rfl

/-! ### Conventions with the same table -/

/-- The state with another code in `CONV`. -/
def State.withConv (c : Pair) (s : State) : State := { s with regs := { s.regs with conv := c } }

@[simp] theorem withConv_conv (c : Pair) (s : State) : (s.withConv c).regs.conv = c := rfl

/-- An accepted `START` overwrites `CONV`: its operand is all it decides (R79). -/
theorem beginConversion_eq_withConv (c c' : Pair) (s : State) :
    beginConversion (c'.setWidth 8) s =
      (beginConversion (c.setWidth 8) s).withConv c' := by
  simp [beginConversion, State.withConv, commit]

section
variable {s : State} {c : Pair} (h : mapIndex c = mapIndex s.regs.conv)
include h

/-- An accepted pixel reads `CONV` only through its table (R66). -/
theorem acceptPixel_withConv (p : Pair) :
    acceptPixel p (s.withConv c) = (acceptPixel p s).withConv c := by
  obtain hf | hf := fill_lt_or_eq s.regs.fill
  · rw [acceptPixel_of_lt hf, acceptPixel_of_lt (s := s.withConv c) hf, withConv_conv, h]
    rfl
  · rw [acceptPixel_of_full hf, acceptPixel_of_full (s := s.withConv c) hf, withConv_conv, h]
    rfl

/-- `END` reads `CONV` only through its table (R67). -/
theorem finishConversion_withConv :
    finishConversion (s.withConv c) = (finishConversion s).withConv c := by
  have hpad : paddedByte (s.withConv c).regs = paddedByte s.regs := by
    rw [paddedByte, withConv_conv, h]
    rfl
  rw [finishConversion, hpad]
  rfl

end

@[simp] theorem feedPixels_conv (R : List Pair) (s : State) :
    (feedPixels R s).regs.conv = s.regs.conv := by
  induction R generalizing s with
  | nil => rfl
  | cons p R ih => rw [feedPixels_cons, ih, acceptPixel_conv]

theorem feedPixels_withConv (R : List Pair) {s : State} {c : Pair}
    (h : mapIndex c = mapIndex s.regs.conv) :
    feedPixels R (s.withConv c) = (feedPixels R s).withConv c := by
  induction R generalizing s with
  | nil => rfl
  | cons p R ih =>
    rw [feedPixels_cons, feedPixels_cons, acceptPixel_withConv h]
    exact ih (by simp [h])

@[simp] theorem conversionResult_conv (s : State) (c : Pair) (R : List Pair) :
    (conversionResult s c R).regs.conv = c := by
  simp [conversionResult]

/-- Conversions under conventions with the same table end alike but for `CONV` (R75). -/
theorem conversionResult_of_same_table {c c' : Pair} (h : mapIndex c' = mapIndex c) (s : State)
    (R : List Pair) : conversionResult s c' R = (conversionResult s c R).withConv c' := by
  have hstart : mapIndex c' = mapIndex (beginConversion (c.setWidth 8) s).regs.conv := by simp [h]
  have hfed : mapIndex c' =
      mapIndex (feedPixels R (beginConversion (c.setWidth 8) s)).regs.conv := by simp [h]
  rw [conversionResult, beginConversion_eq_withConv c c', feedPixels_withConv R hstart,
    finishConversion_withConv hfed]
  rfl

/-- The tables of `black_transparent` and `identity` (R74, R75). -/
theorem mapIndex_one_eq_self : ∀ p : Pair, mapIndex 1#2 p = p := by decide

theorem mapIndex_one_eq_mapIndex_zero : mapIndex 1#2 = mapIndex 0#2 :=
  funext (by decide)

/-- Settles O45: both runs end in their `conversionResult`, and the tables are the same. -/
theorem blackTransparentPacksAsIdentity : Obligations.BlackTransparentPacksAsIdentity := by
  refine ⟨rfl, fun p => ⟨mapIndex_one_eq_self p, congrFun mapIndex_one_eq_mapIndex_zero p⟩,
    fun s R hw hp => ⟨conversionResult s 0#2 R, runSteps_conversion hw hp 0#2 R,
      conversionResult_conv s 0#2 R, ?_⟩⟩
  have hrun := runSteps_conversion hw hp 1#2 R
  rwa [conversionResult_of_same_table mapIndex_one_eq_mapIndex_zero] at hrun

end Sys2Proof.Machine

/-!
PROOFS. The control family: `NOP` and `CLR`, completely, and the order of the tests of one step
(spec 42_control.md R83 to R85, 60_exceptions.md R95). What a step answers is read off `WordStep`.
-/

namespace Sys2Proof.Machine

open Sys2Proof

/-! ### `NOP` and `CLR` -/

theorem exec_nop (s : State) : exec .nop s = .next (quiet s) := rfl

theorem exec_clr (s : State) : exec .clr s = .next (recover s) := rfl

/-- Settles O20: `NOP` answers `quiet s`, whose registers are those of `s`. -/
theorem nopWritesNoRegister : Obligations.NopWritesNoRegister := by
  refine ⟨rfl, exec_nop, fun s t h => ?_⟩
  obtain rfl : quiet s = t := by simpa [exec_nop] using h
  exact congrArg Regs.status (quiet_regs s)

/-- A word with the `op` of `CLR` and an operand is illegal under class (d) of R56. -/
theorem decode_clr_operand {imm : Imm} (h : imm ≠ 0#8) :
    decode (0x400#12 ||| imm.setWidth 12) = .error .clrOperand := by
  obtain ⟨hop, himm⟩ : opField (0x400#12 ||| imm.setWidth 12) = 0x4#4 ∧
      immField (0x400#12 ||| imm.setWidth 12) = imm := Laws.EncodeFields.fields_of_word 0x4#4 imm
  simp [decode, noOperand, hop, himm, h]

/-- No register is set after reset, so no bit of the status word is (R20, R28). -/
theorem reset_status : Regs.reset.status = 0x00#8 := by decide

/-- Settles O22: `CLR` answers `recover s`, whose registers are the reset registers. -/
theorem clrRestoresResetRegisters : Obligations.ClrRestoresResetRegisters := by
  refine ⟨rfl, fun _ h => decode_clr_operand h, exec_clr, fun s t h => ?_⟩
  obtain rfl : recover s = t := by simpa [exec_clr] using h
  exact ⟨rfl, reset_status⟩

/-! ### The tests of one step -/

/-- A legal word is executed as the command it spells. -/
theorem runWord_of_decode {w : CmdWord} {i : Instr} (hd : decode w = .ok i) (s : State) :
    runWord w s = exec i s := by
  rw [runWord, hd]

/-- The lists of events a step can emit (R85). -/
def IsStepEvents (evs : List Event) : Prop :=
  evs = [] ∨ (∃ b, evs = [.byte b]) ∨ evs = [.done] ∨ ∃ b, evs = [.byte b, .done]

theorem acceptPixel_events (p : Pair) (s : State) :
    ∃ evs, (acceptPixel p s).out = s.out ++ evs ∧ IsStepEvents evs := by
  obtain hf | hf := fill_lt_or_eq s.regs.fill
  · exact ⟨[], by rw [acceptPixel_of_lt hf, commit_out], .inl rfl⟩
  · exact ⟨_, by rw [acceptPixel_of_full hf, commit_out], .inr (.inl ⟨_, rfl⟩)⟩

theorem finishConversion_events (s : State) :
    ∃ evs, (finishConversion s).out = s.out ++ evs ∧ IsStepEvents evs := by
  by_cases hf : s.regs.fill = 0#2
  · exact ⟨_, finishConversion_out_of_empty hf, .inr (.inr (.inl rfl))⟩
  · exact ⟨_, finishConversion_out_of_nonempty hf, .inr (.inr (.inr ⟨_, rfl⟩))⟩

/-- Whatever a word does, it appends one of these lists to `OUT`. -/
theorem wordStep_events {w : CmdWord} {s t : State} (h : WordStep w s t) :
    ∃ evs, t.out = s.out ++ evs ∧ IsStepEvents evs := by
  obtain ⟨v, -, rfl⟩ | ⟨-, rfl⟩ | hout := wordStep_out h
  · exact acceptPixel_events (lowPair v) s
  · exact finishConversion_events s
  · exact ⟨[], by rw [hout, List.append_nil], .inl rfl⟩

section
variable {s : State} {w : CmdWord} (hw : s.regs.wf = true) (herr : s.regs.phase ≠ Phase.err)
include hw herr

theorem phase_idle_of_ne_active (h : s.regs.phase ≠ Phase.active) : s.regs.phase = Phase.idle :=
  (wf_phase hw).resolve_right (by simp [h, herr])

theorem phase_active_of_ne_idle (h : s.regs.phase ≠ Phase.idle) : s.regs.phase = Phase.active :=
  ((wf_phase hw).resolve_left h).resolve_right herr

/-- `START` outside phase ERR: the phase is tested before the operand (R95). -/
theorem runWord_start {conv : Imm} (hd : decode w = .ok (.start conv)) :
    runWord w s =
      if s.regs.phase = Phase.active then .next (raise .sequenceError s)
      else if 3#8 < conv then .next (raise .unknownConvention s)
      else exec (.start conv) s := by
  split_ifs with hp hc
  · exact runWord_of_wordStep (.startActive hw hp conv hd)
  · exact runWord_of_wordStep
      (.startUnknown hw (phase_idle_of_ne_active hw herr hp) conv hc hd)
  · exact runWord_of_decode hd s

/-- `PIX` outside phase ERR: the phase is tested before the operand (R95). -/
theorem runWord_pix {v : Imm} (hd : decode w = .ok (.pix v)) :
    runWord w s =
      if s.regs.phase = Phase.idle then .next (raise .sequenceError s)
      else if 3#8 < v then .next (raise .invalidPixelValue s)
      else exec (.pix v) s := by
  split_ifs with hp hv
  · exact runWord_of_wordStep (.pixIdle hw hp v hd)
  · exact runWord_of_wordStep
      (.pixInvalid hw (phase_active_of_ne_idle hw herr hp) v hv hd)
  · exact runWord_of_decode hd s

end

/-- `END` in phase IDLE is out of sequence; otherwise the command decides (R85). -/
theorem runWord_end {s : State} {w : CmdWord} (hw : s.regs.wf = true)
    (hd : decode w = .ok .endRaster) :
    runWord w s =
      if s.regs.phase = Phase.idle then .next (raise .sequenceError s)
      else exec .endRaster s := by
  split_ifs with hp
  · exact runWord_of_wordStep (.endIdle hw hp hd)
  · exact runWord_of_decode hd s

/-- Settles O23: one case of `WordStep` per test that decides, and the events of any case. -/
theorem stepTestsInOrder : Obligations.StepTestsInOrder := by
  intro s w hw
  refine ⟨fun hd => runWord_of_decode hd s,
    fun hd hp => runWord_of_wordStep (.ignored hw hp hd),
    fun herr => ⟨fun why hd => runWord_of_wordStep (.illegal hw herr why hd),
      fun hd => runWord_of_wordStep (.nop hd),
      fun _ hd => runWord_start hw herr hd,
      fun _ hd => runWord_pix hw herr hd,
      fun hd => runWord_end hw hd⟩, ?_⟩
  obtain ⟨t, ht⟩ := runWord_of_wf hw w
  obtain ⟨evs, hout, hevs⟩ := wordStep_events (wordStep_of_runWord ht)
  exact ⟨t, evs, ht, hout, hevs⟩

end Sys2Proof.Machine

/-!
PROOFS. The exceptions family: error entry, the cause of each error, what phase ERR ignores, how it
is left, and the bytes an error leaves in `OUT` (spec 60_exceptions.md R89 to R99). `Causes` says
once which word in which phase raises which error; outside phase ERR such a step answers `raise`.
-/

namespace Sys2Proof.Machine

open Sys2Proof

/-! ### Error entry -/

/-- The status word after an error shows its code and phase ERR, and no pixel (R94). -/
theorem raise_status (e : RpkError) (s : State) :
    (raise e s).status = (e.code.setWidth 8 <<< 4) ||| 2#8 := by
  have hphase : Phase.err.setWidth 8 ||| (0#2).setWidth 8 <<< 2 = 2#8 := by decide
  rw [State.status, Regs.status, raise_phase, raise_fill, raise_errCode, hphase, BitVec.or_comm]

/-- Settles O27: `raise` is the update of R94, whose status word is one of four. -/
theorem raiseEntersErrorPhase : Obligations.RaiseEntersErrorPhase := by
  refine fun e s => ⟨rfl, (err_iff _).2 (raise_phase s e), raise_status e s, ?_⟩
  rw [raise_status]
  cases e <;> decide

/-! ### The cause of each error -/

theorem RpkError.code_ne_zero (e : RpkError) : e.code ≠ 0#3 := by cases e <;> decide

theorem RpkError.code_le_four (e : RpkError) : e.code ≤ 4#3 := by cases e <;> decide

/-- The code tells the errors apart (R89). -/
theorem RpkError.code_injective : Function.Injective RpkError.code := by
  intro e e' h
  cases e <;> cases e' <;> simp [RpkError.code] at h ⊢

/-- The word `w` is a cause of the error in the phase of `s` (R89). -/
def Causes (w : CmdWord) (s : State) : RpkError → Prop
  | .invalidPixelValue =>
    s.regs.phase = Phase.active ∧ ∃ v : Imm, 3#8 < v ∧ decode w = .ok (.pix v)
  | .unknownConvention =>
    s.regs.phase = Phase.idle ∧ ∃ conv : Imm, 3#8 < conv ∧ decode w = .ok (.start conv)
  | .illegalCommand => ∃ why, decode w = .error why
  | .sequenceError =>
    (s.regs.phase = Phase.active ∧ ∃ conv, decode w = .ok (.start conv)) ∨
      (s.regs.phase = Phase.idle ∧
        ((∃ v, decode w = .ok (.pix v)) ∨ decode w = .ok .endRaster))

section
variable {w : CmdWord} {s t : State} (hw : s.regs.wf = true) (herr : s.regs.phase ≠ Phase.err)
include hw herr

/-- Outside phase ERR, a word that causes an error raises it. -/
theorem Causes.runWord_eq {e : RpkError} (h : Causes w s e) :
    runWord w s = .next (raise e s) := by
  apply runWord_of_wordStep
  cases e with
  | invalidPixelValue => obtain ⟨hp, v, hv, hd⟩ := h; exact .pixInvalid hw hp v hv hd
  | unknownConvention => obtain ⟨hp, conv, hc, hd⟩ := h; exact .startUnknown hw hp conv hc hd
  | illegalCommand => obtain ⟨why, hd⟩ := h; exact .illegal hw herr why hd
  | sequenceError =>
    obtain ⟨hp, conv, hd⟩ | ⟨hp, ⟨v, hd⟩ | hd⟩ := h
    · exact .startActive hw hp conv hd
    · exact .pixIdle hw hp v hd
    · exact .endIdle hw hp hd

/-- Outside phase ERR, a step raises an error that the word causes, or none. -/
theorem wordStep_raise_or_errCode_zero (h : WordStep w s t) :
    (∃ e, Causes w s e ∧ t = raise e s) ∨ (t.regs.phase ≠ Phase.err ∧ t.regs.errCode = 0#3) := by
  have hzero : s.regs.errCode = 0#3 := wf_errCode_zero hw herr
  cases h with
  | nop => exact .inr ⟨herr, hzero⟩
  | clr => exact .inr ⟨by simp, rfl⟩
  | ignored _ hp => exact absurd hp herr
  | illegal _ _ why hd => exact .inl ⟨.illegalCommand, ⟨why, hd⟩, rfl⟩
  | start => exact .inr ⟨by simp, hzero⟩
  | startUnknown _ hp conv hc hd => exact .inl ⟨.unknownConvention, ⟨hp, conv, hc, hd⟩, rfl⟩
  | startActive _ hp conv hd => exact .inl ⟨.sequenceError, .inl ⟨hp, conv, hd⟩, rfl⟩
  | pix => exact .inr ⟨by simp [herr], by simp [hzero]⟩
  | pixInvalid _ hp v hv hd => exact .inl ⟨.invalidPixelValue, ⟨hp, v, hv, hd⟩, rfl⟩
  | pixIdle _ hp v hd => exact .inl ⟨.sequenceError, .inr ⟨hp, .inl ⟨v, hd⟩⟩, rfl⟩
  | endRaster => exact .inr ⟨by simp [finishConversion], hzero⟩
  | endIdle _ hp hd => exact .inl ⟨.sequenceError, .inr ⟨hp, .inr hd⟩, rfl⟩

/-- Outside phase ERR, a step leaves the code of an error exactly when the word causes it (R89). -/
theorem errCode_eq_code_iff (ht : runWord w s = .next t) (e : RpkError) :
    t.regs.errCode = e.code ↔ Causes w s e := by
  constructor
  · intro hcode
    obtain ⟨e', hcause, rfl⟩ | ⟨-, hzero⟩ :=
      wordStep_raise_or_errCode_zero hw herr (wordStep_of_runWord ht)
    · exact RpkError.code_injective hcode ▸ hcause
    · exact absurd (hcode.symm.trans hzero) e.code_ne_zero
  · intro hcause
    rw [hcause.runWord_eq hw herr] at ht
    cases ht
    rfl

/-- Outside phase ERR, a step leaves a nonzero code exactly when it enters phase ERR. -/
theorem phase_err_iff_errCode_ne_zero (ht : runWord w s = .next t) :
    t.regs.phase = Phase.err ↔ t.regs.errCode ≠ 0#3 := by
  obtain ⟨e, -, rfl⟩ | ⟨hphase, hzero⟩ :=
    wordStep_raise_or_errCode_zero hw herr (wordStep_of_runWord ht)
  · simp [e.code_ne_zero]
  · simp [hphase, hzero]

/-- There is no error code above 4 (R89). -/
theorem errCode_le_four (ht : runWord w s = .next t) : t.regs.errCode ≤ 4#3 := by
  obtain ⟨e, -, rfl⟩ | ⟨-, hzero⟩ :=
    wordStep_raise_or_errCode_zero hw herr (wordStep_of_runWord ht)
  · exact e.code_le_four
  · simp [hzero]

end

/-! ### In phase ERR -/

/-- In phase ERR every word but `CLR` is ignored (R96). -/
theorem runWord_of_err {s : State} (hw : s.regs.wf = true) (hp : s.regs.phase = Phase.err)
    {w : CmdWord} (hd : decode w ≠ .ok .clr) : runWord w s = .next (quiet s) :=
  runWord_of_wordStep (.ignored hw hp hd)

/-- `CLR` answers `recover s` (R84, R97). -/
theorem runWord_of_clr {w : CmdWord} (hd : decode w = .ok .clr) (s : State) :
    runWord w s = .next (recover s) :=
  runWord_of_wordStep (.clr hd)

/-- Settles O28: outside phase ERR by the cause of each error, in phase ERR by whether the word is
`CLR`. -/
theorem errorCauses : Obligations.ErrorCauses := by
  refine ⟨fun s w hw herr => ?_, fun s w hw hp => ?_⟩
  · obtain ⟨t, ht⟩ := runWord_of_wf hw w
    have hcode := errCode_eq_code_iff hw herr ht
    exact ⟨t, ht, phase_err_iff_errCode_ne_zero hw herr ht, errCode_le_four hw herr ht,
      hcode .invalidPixelValue, hcode .unknownConvention, hcode .illegalCommand,
      hcode .sequenceError⟩
  · by_cases hd : decode w = .ok .clr
    · exact ⟨_, runWord_of_clr hd s, by simp [hd]⟩
    · exact ⟨_, runWord_of_err hw hp hd, by simp [hd]⟩

/-- Settles O29: such a word is ignored. -/
theorem errorPhaseIgnoresAllButClr : Obligations.ErrorPhaseIgnoresAllButClr :=
  fun _ w hw hp hclr => runWord_of_err hw hp (decode_ne_clr w hclr)

/-- In phase ERR an input recovers, being a reset or the word of `CLR`, or it does nothing. -/
theorem applyPort_of_err {s : State} (hw : s.regs.wf = true) (hp : s.regs.phase = Phase.err)
    (p : PortIn) :
    (applyPort p s = .next (recover s) ∧
      (p.rst = true ∨ p.cmdValid = true ∧ p.cmd = 0x400#12)) ∨
    applyPort p s = .next (quiet s) := by
  obtain ⟨hr, h⟩ | ⟨-, -, h⟩ | ⟨-, hv, h⟩ := applyPort_cases p s
  · exact .inl ⟨h, .inl hr⟩
  · exact .inr h
  · rw [h]
    by_cases hclr : p.cmd = 0x400#12
    · exact .inl ⟨runWord_of_clr (congrArg decode hclr) s, .inr ⟨hv, hclr⟩⟩
    · exact .inr (runWord_of_err hw hp (decode_ne_clr _ hclr))

/-- Settles O30: the inputs that do nothing do not leave phase ERR, and the others recover. -/
theorem errorPhaseIsLeftOnlyByClrOrReset : Obligations.ErrorPhaseIsLeftOnlyByClrOrReset := by
  refine ⟨fun s t hw hp ht hleft => ?_, fun s => ⟨_, (step_present s _).trans (runWord_of_clr rfl s), rfl⟩,
    fun s => ⟨_, rfl, rfl⟩⟩
  cases hin : s.inputs with
  | nil =>
    rw [step_nil hin] at ht
    cases ht
    exact absurd hp hleft
  | cons p rest =>
    rw [step_cons hin] at ht
    obtain ⟨h, hinput⟩ | h := applyPort_of_err (s := { s with inputs := rest }) hw hp p
    · cases h.symm.trans ht
      exact ⟨rfl, p, rest, rfl, hinput⟩
    · cases h.symm.trans ht
      exact absurd hp hleft

/-! ### The bytes an error leaves in `OUT` -/

/-- An operation that commits from the registers leaves alone the word presented next. -/
theorem CommitsFromRegs.present {f : State → State} (h : CommitsFromRegs f) (s : State)
    (w : CmdWord) : f (s.present w) = (f s).present w := by
  rw [h s, h (s.present w)]
  rfl

theorem feedPixels_present (R : List Pair) (s : State) (w : CmdWord) :
    feedPixels R (s.present w) = (feedPixels R s).present w := by
  induction R generalizing s with
  | nil => rfl
  | cons p R ih => rw [feedPixels_cons, (acceptPixel_commitsFromRegs p).present, ih, feedPixels_cons]

/-- From phase IDLE, `START` and legal pixels run to the word after them. -/
theorem runSteps_start_pixels {s : State} (hw : s.regs.wf = true)
    (hp : s.regs.phase = Phase.idle) (c : Pair) (R : List Pair) (w : CmdWord) (n : Nat) :
    runSteps (R.length + (n + 1)) ((s.present w).presentAll
      (.start (c.setWidth 8) :: R.map fun p => .pix (p.setWidth 8))) =
      runSteps n ((feedPixels R (beginConversion (c.setWidth 8) s)).present w) := by
  have hstart : ∀ js, exec (.start (c.setWidth 8)) ((s.present w).presentAll js) =
      .next (((beginConversion (c.setWidth 8) s).present w).presentAll js) := fun js =>
    exec_start_of_idle (s := (s.present w).presentAll js) hw hp (inRange_setWidth c)
  have hpixels := runSteps_pixels R [] n (s := (beginConversion (c.setWidth 8) s).present w)
    (beginConversion_wf hw hp _) rfl
  rw [List.append_nil, presentAll_nil, feedPixels_present] at hpixels
  rw [← Nat.add_assoc, runSteps_presentAll_cons (hstart _), hpixels]

/-- The words that end a conversion by an error cause one in phase ACTIVE (R88 (b), R89). -/
theorem exists_causes_of_active {w : CmdWord} {s : State} (hp : s.regs.phase = Phase.active)
    (h : (∃ why, decode w = .error why) ∨ (∃ conv, decode w = .ok (.start conv)) ∨
      ∃ v : Imm, 3#8 < v ∧ decode w = .ok (.pix v)) : ∃ e, Causes w s e := by
  obtain hillegal | hstart | hpix := h
  · exact ⟨.illegalCommand, hillegal⟩
  · exact ⟨.sequenceError, .inl ⟨hp, hstart⟩⟩
  · exact ⟨.invalidPixelValue, hp, hpix⟩

/-- The bytes of the complete groups are the first bytes of the reference function (R61, R99). -/
theorem map_byte_take_pack (R : List Pair) (c : Pair) :
    ((pack R (mapIndex c)).take (R.length / 4)).map Event.byte =
      packEvents R c (R.length / 4) := by
  have hle : R.length / 4 ≤ packLength R.length := by rw [packLength]; omega
  rw [List.map_take, map_byte_pack, packEvents, packEvents, ← List.map_take, List.take_range,
    Nat.min_eq_left hle]

/-- Settles O31: the pixels fed have emitted the complete groups, and `raise` emits nothing. -/
theorem errorKeepsBytesAlreadyEmitted : Obligations.ErrorKeepsBytesAlreadyEmitted := by
  intro s c R w hw hp hraises
  have hfed := packing_feedPixels hw hp c R
  obtain ⟨e, hcause⟩ := exists_causes_of_active hfed.phase hraises
  have hstep := hcause.runWord_eq hfed.wf (by simp)
  refine ⟨raise e (feedPixels R (beginConversion (c.setWidth 8) s)), ?_, rfl, e.code_ne_zero, ?_⟩
  · rw [runSteps_start_pixels hw hp c R w 1, runSteps_succ ((step_present _ w).trans hstep), runSteps_zero]
  · rw [raise_out, hfed.out, map_byte_take_pack]

end Sys2Proof.Machine

/-!
PROOFS. The reset family: the step in which the host holds `rst = 1` (spec
70_reset_and_hazards.md R104, R105). Such a step answers `recover s`, as `CLR` does.
-/

namespace Sys2Proof.Machine

open Sys2Proof

/-- Reset is tested before the command, which has no effect (R104). -/
theorem applyPort_of_rst {p : PortIn} (hp : p.rst = true) (s : State) :
    applyPort p s = .next (recover s) := by
  obtain ⟨-, h⟩ | ⟨hr, -⟩ | ⟨hr, -⟩ := applyPort_cases p s
  · exact h
  · simp [hp] at hr
  · simp [hp] at hr

theorem recover_status (s : State) : (recover s).status = 0x00#8 := reset_status

/-- The reset registers are in phase IDLE, so port `err` is low (R22, R104). -/
theorem recover_err (s : State) : (recover s).err = false := by
  rw [← Bool.not_eq_true, err_iff, recover_regs, reset_phase]
  exact idle_ne_err

/-- Settles O2: a reset step and `CLR` both answer `recover s`, whatever the command presented. -/
theorem resetOverridesCommand : Obligations.ResetOverridesCommand := by
  intro s valid w
  have hstep : step { s with inputs := ⟨true, valid, w⟩ :: s.inputs } = .next (recover s) :=
    (step_cons rfl).trans (applyPort_of_rst rfl s)
  exact ⟨recover s, hstep, exec_clr s, recover_regs s, recover_lines s, recover_err s,
    recover_status s, recover_out s, recover_inputs s⟩

end Sys2Proof.Machine

/-!
PROOFS. The codec and the mapper: the round trip of a command through its word, the listed words,
the step as the decoded command, and the mappings as involutions (spec 30_encoding.md R47 to R56,
41_palette_mapper.md R74 to R78).
-/

namespace Sys2Proof.Machine

open Sys2Proof

/-- Settles O8: `encode` places the fields of the command and the decoder reads them back; every
command is well formed. -/
theorem decodeEncodeRoundTrip : Obligations.DecodeEncodeRoundTrip := fun i _ => decode_encode i

/-- Settles O9: each closed word by evaluation of the decoder. -/
theorem listedWordsDecode : Obligations.ListedWordsDecode := by
  unfold Obligations.ListedWordsDecode
  decide

/-- Settles O4: the step that takes a word is `runWord`, which runs the decoded command. -/
theorem stepRunsDecodedCommand : Obligations.StepRunsDecodedCommand :=
  fun s w _ hd => (step_present s w).trans (runWord_of_decode hd s)

/-- Every mapping is its own inverse (R74, R76, R77). -/
theorem mapIndex_involutive : ∀ c : Pair, Function.Involutive (mapIndex c) := by
  unfold Function.Involutive
  decide

/-- Settles O12: an involution is injective; the table of `white_transparent` by evaluation. -/
theorem mappingsAreInvolutions : Obligations.MappingsAreInvolutions :=
  ⟨mapIndex_involutive, fun c _ _ h => (mapIndex_involutive c).injective h, by decide⟩

end Sys2Proof.Machine

/-!
PROOFS. The invariant: R23 and the lines' levels hold after reset and after every step of every
input, no such state is stuck, and registers that break R23 are refused (spec 10_state.md section 6,
70_reset_and_hazards.md R115). `wordStep_wf` says once that a word keeps R23.
-/

namespace Sys2Proof.Machine

open Sys2Proof

/-! ### Each operation leaves well-formed registers -/

/-- Registers with an empty group need only a legal phase and error code (R23). -/
theorem wf_of_empty {r : Regs} (hp : r.phase ≠ 3#2) (ha : r.acc = 0x00#8) (hf : r.fill = 0#2)
    (hd : r.errCode ≠ 0#3 ↔ r.phase = Phase.err) (he : r.errCode ≤ 4#3) : r.wf = true :=
  wf_of_parts hp (by simp [ha]) (fun _ => ⟨ha, hf⟩) hd he

theorem reset_wf : Regs.reset.wf = true :=
  wf_of_empty idle_ne_three rfl rfl (by simp) (by simp)

/-- An error leaves well-formed registers, whatever they held before (R23, R94). -/
theorem raise_wf (e : RpkError) (s : State) : (raise e s).regs.wf = true :=
  wf_of_empty err_ne_three rfl rfl (by simp [e.code_ne_zero]) e.code_le_four

/-- An accepted `END` leaves well-formed registers (R23, R68). -/
theorem finishConversion_wf {s : State} (hw : s.regs.wf = true)
    (hp : s.regs.phase = Phase.active) : (finishConversion s).regs.wf = true := by
  have he : s.regs.errCode = 0#3 := wf_errCode_zero hw (by simp [hp])
  exact wf_of_empty idle_ne_three rfl rfl (by simp [finishConversion, he])
    (by simp [finishConversion, he])

/-- Every word keeps R23. -/
theorem wordStep_wf {w : CmdWord} {s t : State} (h : WordStep w s t) (hw : s.regs.wf = true) :
    t.regs.wf = true := by
  cases h with
  | nop | ignored => exact hw
  | clr => exact reset_wf
  | illegal | startUnknown | startActive | pixInvalid | pixIdle | endIdle => exact raise_wf _ s
  | start _ hp conv => exact beginConversion_wf hw hp conv
  | pix _ hp v => exact acceptPixel_wf hw hp (lowPair v)
  | endRaster _ hp => exact finishConversion_wf hw hp

/-! ### The lines -/

/-- Whatever is emitted, `out_data` is zero without `out_valid` (R24). -/
theorem ofEvents_outData (evs : List Event) (h : (Lines.ofEvents evs).outValid = false) :
    (Lines.ofEvents evs).outData = 0x00#8 := by
  induction evs with
  | nil => rfl
  | cons ev evs ih =>
    cases ev with
    | byte b => cases h
    | done => exact ih h

/-- A word sets the lines by the events it emits (R22). -/
theorem wordStep_lines_eq_ofEvents {w : CmdWord} {s t : State} (h : WordStep w s t) :
    ∃ evs, t.lines = Lines.ofEvents evs := by
  obtain ⟨f, hf, rfl, -⟩ := h.operation
  rw [hf s]
  exact ⟨_, rfl⟩

/-- `done` rises only on the way into phase IDLE (R22, R68). -/
theorem wordStep_phase_of_done {w : CmdWord} {s t : State} (h : WordStep w s t)
    (hdone : t.lines.done = true) : t.regs.phase = Phase.idle := by
  obtain ⟨v, -, rfl⟩ | ⟨-, rfl⟩ | ⟨-, -, hlow⟩ := wordStep_lines h
  · simp [acceptPixel_done] at hdone
  · rfl
  · simp [hlow] at hdone

/-! ### The invariant of every reachable state -/

/-- With the lines low, the invariant is R23. -/
theorem inv_of_low {t : State} (hw : t.regs.wf = true) (hl : t.lines = Lines.low) : t.Inv := by
  simp [State.Inv, hw, hl]

/-- Settles O35: the reset registers are well formed and the lines low. -/
theorem resetMeetsInvariant : Obligations.ResetMeetsInvariant := inv_of_low reset_wf rfl

theorem wordStep_inv {w : CmdWord} {s t : State} (h : WordStep w s t) (hw : s.regs.wf = true) :
    t.Inv := by
  obtain ⟨evs, hevs⟩ := wordStep_lines_eq_ofEvents h
  exact ⟨wordStep_wf h hw, hevs ▸ ofEvents_outData evs, wordStep_phase_of_done h⟩

/-- Every input leaves a state that meets the invariant. -/
theorem applyPort_inv {p : PortIn} {s t : State} (hw : s.regs.wf = true)
    (ht : applyPort p s = .next t) : t.Inv := by
  obtain ⟨-, h⟩ | ⟨-, -, h⟩ | ⟨-, -, h⟩ := applyPort_cases p s
  · cases h.symm.trans ht
    exact inv_of_low reset_wf rfl
  · cases h.symm.trans ht
    exact inv_of_low hw rfl
  · exact wordStep_inv (wordStep_of_runWord (h.symm.trans ht)) hw

/-- Settles O36: with nothing presented the lines fall; otherwise by the input. -/
theorem stepKeepsRegisterInvariant : Obligations.StepKeepsRegisterInvariant := by
  rintro s t ⟨hw, -, -⟩ ht
  cases hin : s.inputs with
  | nil =>
    cases (step_nil hin).symm.trans ht
    exact inv_of_low hw rfl
  | cons p rest =>
    exact applyPort_inv (s := { s with inputs := rest }) hw ((step_cons hin).symm.trans ht)

/-! ### Progress, and registers that break R23 -/

/-- Well-formed registers answer every input (R115). -/
theorem applyPort_of_wf {s : State} (hw : s.regs.wf = true) (p : PortIn) :
    ∃ t, applyPort p s = .next t := by
  obtain ⟨-, h⟩ | ⟨-, -, h⟩ | ⟨-, -, h⟩ := applyPort_cases p s
  · exact ⟨_, h⟩
  · exact ⟨_, h⟩
  · rw [h]
    exact runWord_of_wf hw p.cmd

/-- Settles O37: any input by `applyPort_of_wf`, and `CLR` answers the reset registers. -/
theorem noStepIsStuck : Obligations.NoStepIsStuck := by
  refine ⟨fun s hw => ?_,
    fun s => ⟨recover s, (step_present s _).trans (runWord_of_clr rfl s), rfl⟩⟩
  cases hin : s.inputs with
  | nil => exact ⟨_, step_nil hin⟩
  | cons p rest =>
    rw [step_cons hin]
    exact applyPort_of_wf (s := { s with inputs := rest }) hw p

/-- Settles O3: both steps answer `quiet`. -/
theorem noCommandChangesNoRegister : Obligations.NoCommandChangesNoRegister :=
  fun _ _ => ⟨(step_cons rfl).trans rfl, step_nil⟩

/-- An illegal word is executed by `execIllegal`, whichever its class (R56, R92). -/
theorem runWord_of_illegal {w : CmdWord} {why : IllegalWord} (hd : decode w = .error why)
    (s : State) : runWord w s = execIllegal s := by
  rw [runWord, hd]

/-- Settles O38: each of them begins with the phase test, which refuses such registers. -/
theorem brokenRegistersAreRefused : Obligations.BrokenRegistersAreRefused := by
  intro s hw
  have hrefused (a b : State) : byPhase s a b = .refused .unreachableState :=
    byPhase_of_not_wf hw a b
  exact ⟨fun _ => hrefused _ _, fun _ => hrefused _ _, hrefused _ _,
    fun w _ hd => (step_present s w).trans ((runWord_of_illegal hd s).trans (hrefused _ _))⟩

/-! ### The values of `STATUS` -/

/-- Settles O33: in IDLE only the phase shows, in ACTIVE `FILL` too, in ERR the error code. -/
theorem statusTakesNineValues : Obligations.StatusTakesNineValues := by
  intro s hw
  rw [State.status, Regs.status]
  obtain hp | hp | hp := wf_phase hw
  · obtain ⟨-, hf⟩ := wf_empty hw (by simp [hp])
    rw [hp, hf, wf_errCode_zero hw (by simp [hp])]
    decide
  · rw [hp, wf_errCode_zero hw (by simp [hp])]
    generalize s.regs.fill = fill
    revert fill
    decide
  · obtain ⟨-, hf⟩ := wf_empty hw (by simp [hp])
    have hne : s.regs.errCode ≠ 0#3 := (wf_errCode hw).2 hp
    have hle : s.regs.errCode ≤ 4#3 := wf_errCode_le hw
    rw [hp, hf]
    revert hne hle
    generalize s.regs.errCode = code
    revert code
    decide

end Sys2Proof.Machine

/-!
PROOFS. What a word does to the phase, to the conversion in progress and to everything else: the
phase table, how a conversion ends, the access matrix, and that `NOP` is invisible to a run (spec
42_control.md R83, R86, R88, 10_state.md R29).
-/

namespace Sys2Proof.Machine

open Sys2Proof

/-! ### The phase table -/

/-- Settles O24: in each case of `WordStep` the word, the phase before and the range check decide
the table's entry. -/
theorem phaseTable : Obligations.PhaseTable := by
  intro s w hw
  obtain ⟨t, ht⟩ := runWord_of_wf hw w
  refine ⟨t, ht, ?_⟩
  cases wordStep_of_runWord ht with
  | nop hd | clr hd | illegal _ _ _ hd => simp [hd]
  | startUnknown _ hp conv hc hd => simp [hd, hc]
  | ignored _ hp hd =>
    cases hi : decode w with
    | error why => exact hp
    | ok i =>
      cases i with
      | nop => rfl
      | clr => exact absurd hi hd
      | start | pix | endRaster => simp [hp]
  | start _ hp conv hc hd => simp [hd, hp, hc]
  | startActive _ hp conv hd => simp [hd, hp]
  | pix _ hp v hv hd => simp [hd, hp, hv]
  | pixInvalid _ hp v hv hd => simp [hd, hv]
  | pixIdle _ hp v hd => simp [hd, hp]
  | endRaster _ hp hd => simp [hd, hp, finishConversion]
  | endIdle _ hp hd => simp [hd, hp]

/-! ### How a word ends the conversion in progress -/

/-- What a word does to a conversion in progress (R88). -/
def wordEnd (w : CmdWord) : Option ConversionEnd :=
  match decode w with
  | .ok .nop => none
  | .ok (.start _) => some .failed
  | .ok (.pix v) => if v ≤ 3#8 then none else some .failed
  | .ok .endRaster => some .completed
  | .ok .clr => some .abandoned
  | .error _ => some .failed

/-- In phase ACTIVE the word decides how the conversion ends. -/
theorem conversionEnd_of_wordStep {w : CmdWord} {s t : State} (h : WordStep w s t)
    (hp : s.regs.phase = Phase.active) : conversionEnd s t = wordEnd w := by
  unfold conversionEnd wordEnd
  cases h with
  | nop hd | clr hd | illegal _ _ _ hd | startActive _ _ _ hd => simp [hd, hp]
  | pix _ _ v hv hd => simp [hd, hp, hv, acceptPixel_done]
  | pixInvalid _ _ v hv hd => simp [hd, hp, hv]
  | endRaster _ _ hd => simp [hd, hp, finishConversion_done]
  | ignored _ hp' | start _ hp' | startUnknown _ hp' | pixIdle _ hp' | endIdle _ hp' =>
    simp [hp] at hp'

theorem wordEnd_iff (w : CmdWord) :
    (wordEnd w = some .completed ↔ decode w = .ok .endRaster) ∧
    (wordEnd w = some .failed ↔
      (∃ why, decode w = .error why) ∨ (∃ conv, decode w = .ok (.start conv)) ∨
        ∃ v : Imm, 3#8 < v ∧ decode w = .ok (.pix v)) ∧
    (wordEnd w = some .abandoned ↔ decode w = .ok .clr) ∧
    (wordEnd w = none ↔ decode w = .ok .nop ∨ ∃ v : Imm, v ≤ 3#8 ∧ decode w = .ok (.pix v)) := by
  unfold wordEnd
  cases hd : decode w with
  | error why => simp
  | ok i =>
    cases i with
    | pix v => by_cases hv : v ≤ 3#8 <;> simp [hv, BitVec.not_lt.2, BitVec.not_le.1]
    | nop | start _ | endRaster | clr => simp

/-- Settles O26: the word decides, and each end has its words. -/
theorem conversionEndsByEndErrorOrClr : Obligations.ConversionEndsByEndErrorOrClr := by
  intro s w hw hp
  obtain ⟨t, ht⟩ := runWord_of_wf hw w
  refine ⟨t, ht, ?_⟩
  rw [conversionEnd_of_wordStep (wordStep_of_runWord ht) hp]
  exact wordEnd_iff w

/-! ### The frame of each command -/

/-- What a command answers, by the cases of its word. -/
theorem wordStep_of_exec {i : Instr} {s t : State} (h : exec i s = .next t) :
    WordStep (encode i) s t :=
  wordStep_of_runWord ((runWord_encode i s).trans h)

section
variable {w : CmdWord} {s t : State} (h : WordStep w s t)
include h

/-- No command touches what the host presents next. -/
theorem wordStep_inputs : t.inputs = s.inputs := by
  obtain ⟨f, hf, rfl, -⟩ := h.operation
  rw [hf s]
  rfl

/-- Only an accepted `START` or `CLR` writes `CONV` (R29). -/
theorem wordStep_conv (hclr : decode w ≠ .ok .clr) :
    t.regs.conv = s.regs.conv ∨ ∃ conv, decode w = .ok (.start conv) ∧
      t.regs.phase = Phase.active ∧ t.regs.conv = conv.setWidth 2 := by
  cases h with
  | clr hd => exact absurd hd hclr
  | start _ _ conv _ hd => exact .inr ⟨conv, hd, rfl, lowPair_eq_setWidth conv⟩
  | nop | ignored | illegal | startUnknown | startActive | pix | pixInvalid | pixIdle | endRaster
  | endIdle => exact .inl (by simp)

/-- Only an error or `CLR` writes `ERRCODE` (R29). -/
theorem wordStep_errCode (hclr : decode w ≠ .ok .clr) :
    t.regs.errCode = s.regs.errCode ∨ t.regs.phase = Phase.err := by
  cases h with
  | clr hd => exact absurd hd hclr
  | nop | ignored | start | endRaster => exact .inl rfl
  | pix => exact .inl (acceptPixel_errCode _ s)
  | illegal | startUnknown | startActive | pixInvalid | pixIdle | endIdle => exact .inr rfl

/-- `PIX` writes neither `PHASE` nor `ERRCODE`, or it raises an error (R29). -/
theorem wordStep_phase_of_pix {v : Imm} (hd : decode w = .ok (.pix v)) :
    t.regs.phase = s.regs.phase ∧ t.regs.errCode = s.regs.errCode ∨ t.regs.phase = Phase.err := by
  cases h with
  | ignored => exact .inl ⟨rfl, rfl⟩
  | pix => exact .inl ⟨acceptPixel_phase _ s, acceptPixel_errCode _ s⟩
  | illegal | startUnknown | startActive | pixInvalid | pixIdle | endIdle => exact .inr rfl
  | nop hd' | clr hd' | start _ _ _ _ hd' | endRaster _ _ hd' => simp [hd'] at hd

/-- `PIX` emits a byte when it completes a group, or nothing (R29). -/
theorem wordStep_out_of_pix {v : Imm} (hd : decode w = .ok (.pix v)) :
    t.out = s.out ∨ s.regs.fill = 3#2 ∧ ∃ b, t.out = s.out ++ [.byte b] := by
  obtain ⟨u, -, rfl⟩ | ⟨⟨-, hd'⟩, -⟩ | hout := wordStep_out h
  · obtain hf | hf := fill_lt_or_eq s.regs.fill
    · exact .inl (by simp [acceptPixel_of_lt hf])
    · exact .inr ⟨hf, _, by rw [acceptPixel_of_full hf, commit_out]⟩
  · simp [hd'] at hd
  · exact .inl hout

/-- `END` emits `Done`, after a byte exactly when a group is begun, or nothing (R29). -/
theorem wordStep_out_of_end (hd : decode w = .ok .endRaster) :
    t.out = s.out ∨ s.regs.fill = 0#2 ∧ t.out = s.out ++ [.done] ∨
      s.regs.fill ≠ 0#2 ∧ ∃ b, t.out = s.out ++ [.byte b, .done] := by
  obtain ⟨v, ⟨-, -, hd'⟩, -⟩ | ⟨-, rfl⟩ | hout := wordStep_out h
  · simp [hd'] at hd
  · by_cases hf : s.regs.fill = 0#2
    · exact .inr (.inl ⟨hf, finishConversion_out_of_empty hf⟩)
    · exact .inr (.inr ⟨hf, _, finishConversion_out_of_nonempty hf⟩)
  · exact .inl hout

/-- A word that is neither `PIX` nor `END` emits nothing (R29). -/
theorem wordStep_out_eq (hpix : ∀ v, decode w ≠ .ok (.pix v)) (hend : decode w ≠ .ok .endRaster) :
    t.out = s.out := by
  obtain ⟨v, ⟨-, -, hd⟩, -⟩ | ⟨⟨-, hd⟩, -⟩ | hout := wordStep_out h
  · exact absurd hd (hpix v)
  · exact absurd hd hend
  · exact hout

/-- A word that is neither `START` nor `CLR` keeps `CONV` (R29). -/
theorem wordStep_conv_eq (hstart : ∀ conv, decode w ≠ .ok (.start conv))
    (hclr : decode w ≠ .ok .clr) : t.regs.conv = s.regs.conv :=
  (wordStep_conv h hclr).resolve_right fun ⟨conv, hd, _⟩ => hstart conv hd

end

/-- Settles O39: a row of the matrix is the frame lemmas at the command's word. -/
theorem accessMatrix : Obligations.AccessMatrix := by
  intro s t
  refine ⟨fun h => ?nop, fun conv h => ?start, fun v h => ?pix, fun h => ?endRaster,
    fun h => ?clr, fun w why hd h => ?illegal⟩
  case nop => cases h; exact ⟨rfl, rfl, rfl⟩
  case clr => cases h; exact ⟨rfl, rfl⟩
  case illegal =>
    have hstep : WordStep w s t := wordStep_of_runWord h
    exact ⟨wordStep_conv_eq hstep (by simp [hd]) (by simp [hd]),
      wordStep_out_eq hstep (by simp [hd]) (by simp [hd]), wordStep_inputs hstep⟩
  case start =>
    have hstep := wordStep_of_exec h
    have hd := decode_encode (.start conv)
    have hclr : decode (encode (.start conv)) ≠ .ok .clr := by simp [hd]
    refine ⟨wordStep_out_eq hstep (by simp [hd]) (by simp [hd]), wordStep_inputs hstep, ?_,
      wordStep_errCode hstep hclr⟩
    refine (wordStep_conv hstep hclr).imp_right ?_
    rintro ⟨conv', hd', hphase, hconv⟩
    obtain rfl : conv = conv' := by simpa [hd] using hd'
    exact ⟨hphase, hconv⟩
  case pix =>
    have hstep := wordStep_of_exec h
    have hd := decode_encode (.pix v)
    exact ⟨wordStep_conv_eq hstep (by simp [hd]) (by simp [hd]), wordStep_inputs hstep,
      wordStep_phase_of_pix hstep hd, wordStep_out_of_pix hstep hd⟩
  case endRaster =>
    have hstep := wordStep_of_exec h
    have hd := decode_encode .endRaster
    exact ⟨wordStep_conv_eq hstep (by simp [hd]) (by simp [hd]), wordStep_inputs hstep,
      wordStep_errCode hstep (by simp [hd]), wordStep_out_of_end hstep hd⟩

/-! ### `NOP` in a run -/

/-- The state with these words, and nothing else, left to present. -/
def State.presenting (ws : List CmdWord) (s : State) : State :=
  { s with inputs := ws.map PortIn.command }

theorem presenting_cons (w : CmdWord) (ws : List CmdWord) (s : State) :
    s.presenting (w :: ws) = (s.presenting ws).present w := rfl

/-- An operation that commits from the registers leaves alone the words presented. -/
theorem CommitsFromRegs.presenting {f : State → State} (h : CommitsFromRegs f) (s : State)
    (ws : List CmdWord) : f (s.presenting ws) = (f s).presenting ws := by
  rw [h s, h (s.presenting ws)]
  rfl

/-- A word does the same whatever is presented after it (R72). -/
theorem runWord_presenting_iff (w : CmdWord) (ws : List CmdWord) (s t : State) :
    runWord w (s.presenting ws) = .next t ↔ ∃ u, runWord w s = .next u ∧ t = u.presenting ws := by
  constructor
  · intro h
    obtain ⟨f, hf, rfl, hstep⟩ := (wordStep_of_runWord h).operation
    exact ⟨f s, runWord_of_wordStep (hstep s rfl), hf.presenting s ws⟩
  · rintro ⟨u, h, rfl⟩
    obtain ⟨f, hf, rfl, hstep⟩ := (wordStep_of_runWord h).operation
    exact hf.presenting s ws ▸ runWord_of_wordStep (hstep (s.presenting ws) rfl)

/-- A step overwrites the lines without reading them (R22). -/
theorem step_quiet (s : State) : step (quiet s) = step s := by
  cases hin : s.inputs with
  | nil => rw [step_nil hin, step_nil (s := quiet s) hin]; rfl
  | cons p rest => rw [step_cons hin, step_cons (s := quiet s) hin]; rfl

/-- A run of `n` steps ends with these registers and this history. -/
def RunsTo (n : Nat) (s : State) (r : Regs) (o : List Event) : Prop :=
  ∃ t, runSteps n s = .next t ∧ t.regs = r ∧ t.out = o

section
variable {n : Nat} {s : State} {r : Regs} {o : List Event}

theorem runsTo_succ_iff :
    RunsTo (n + 1) s r o ↔ ∃ t, step s = .next t ∧ RunsTo n t r o := by
  unfold RunsTo
  rw [runSteps]
  cases step s <;> simp

/-- Where a run ends does not depend on the lines it begins with. -/
theorem runsTo_quiet_iff : RunsTo n (quiet s) r o ↔ RunsTo n s r o := by
  cases n with
  | zero => simp [RunsTo]
  | succ n => rw [runsTo_succ_iff, runsTo_succ_iff, step_quiet]

/-- A run that presents a word first goes on from what the word answers. -/
theorem runsTo_presenting_cons_iff (w : CmdWord) (ws : List CmdWord) :
    RunsTo (n + 1) (s.presenting (w :: ws)) r o ↔
      ∃ u, runWord w s = .next u ∧ RunsTo n (u.presenting ws) r o := by
  simp [runsTo_succ_iff, presenting_cons, runWord_presenting_iff]

end

/-- A `NOP` among the words presented costs a step and does not change where the run ends. -/
theorem runsTo_insert_nop_iff (before after : List CmdWord) (s : State) (r : Regs)
    (o : List Event) :
    RunsTo (before.length + after.length) (s.presenting (before ++ after)) r o ↔
      RunsTo (before.length + after.length + 1)
        (s.presenting (before ++ [0x000#12] ++ after)) r o := by
  induction before generalizing s with
  | nil =>
    have hnop (u : State) : runWord 0x000#12 s = .next u ↔ quiet s = u := by
      rw [runWord_of_wordStep (.nop rfl), Host.Outcome.next.injEq]
    have hquiet : (quiet s).presenting after = quiet (s.presenting after) := rfl
    simp [runsTo_presenting_cons_iff, hnop, hquiet, runsTo_quiet_iff]
  | cons w before ih =>
    simp only [List.length_cons, List.cons_append, Nat.succ_add]
    rw [runsTo_presenting_cons_iff, runsTo_presenting_cons_iff]
    exact exists_congr fun u => and_congr_right fun _ => ih u

/-- Settles O21: by induction on the words before the `NOP`. -/
theorem nopInsertionIsInvisible : Obligations.NopInsertionIsInvisible := by
  intro s before after r o
  rw [Nat.add_right_comm]
  exact runsTo_insert_nop_iff before after s r o

end Sys2Proof.Machine

/-!
PROOFS. Conversions: the adequacy and streaming laws, rasters of any 8-bit values, and the host that
trusts bytes only after `Done` (spec 40_pixel_packer.md R61, R69, R70, 60_exceptions.md R100). Each
run is led to `feedPixels`, whose bytes the invariant `Packing` gives.
-/

namespace Sys2Proof.Machine

open Sys2Proof

/-! ### The adequacy law -/

@[simp] theorem acceptPixel_inputs (p : Pair) (s : State) :
    (acceptPixel p s).inputs = s.inputs := by
  rw [acceptPixel_commitsFromRegs p s, commit_inputs]

@[simp] theorem feedPixels_inputs (R : List Pair) (s : State) :
    (feedPixels R s).inputs = s.inputs := by
  induction R generalizing s with
  | nil => rfl
  | cons p R ih => rw [feedPixels_cons, ih, acceptPixel_inputs]

theorem conversionResult_inputs (s : State) (c : Pair) (R : List Pair) :
    (conversionResult s c R).inputs = s.inputs :=
  feedPixels_inputs R (beginConversion (c.setWidth 8) s)

/-- A conversion leaves the reset registers but for its convention (R69). -/
theorem conversionResult_regs {s : State} (hw : s.regs.wf = true)
    (hp : s.regs.phase = Phase.idle) (c : Pair) (R : List Pair) :
    (conversionResult s c R).regs = { Regs.reset with conv := c } := by
  have hfed := packing_feedPixels hw hp c R
  have he := wf_errCode_zero hfed.wf (by simp)
  simp [conversionResult, finishConversion, Regs.reset, he]

/-- Settles O40: the run ends in `conversionResult`, field by field. -/
theorem conversionEmitsPackThenDone : Obligations.ConversionEmitsPackThenDone :=
  fun s c R hw hp => ⟨conversionResult s c R, runSteps_conversion hw hp c R,
    conversionResult_regs hw hp c R, conversionResult_out hw hp c R, finishConversion_done _,
    conversionResult_inputs s c R⟩

/-! ### The streaming law -/

section
variable {s : State} (hw : s.regs.wf = true)
include hw

/-- An accepted `START` leaves alone the commands presented next. -/
theorem exec_start_presentAll (hp : s.regs.phase = Phase.idle) (c : Pair) (is : List Instr) :
    exec (.start (c.setWidth 8)) (s.presentAll is) =
      .next ((beginConversion (c.setWidth 8) s).presentAll is) :=
  exec_start_of_idle (s := s.presentAll is) hw hp (inRange_setWidth c)

/-- An accepted `PIX` leaves alone the commands presented next. -/
theorem exec_pix_presentAll (hp : s.regs.phase = Phase.active) (p : Pair) (is : List Instr) :
    exec (.pix (p.setWidth 8)) (s.presentAll is) =
      .next ((acceptPixel p s).presentAll is) := by
  rw [exec_pix_of_active (s := s.presentAll is) hw hp (inRange_setWidth p), lowPair_setWidth,
    acceptPixel_presentAll]

end

/-- From phase IDLE, `START` and legal pixels run to the commands after them. -/
theorem runSteps_start_pixels_commands {s : State} (hw : s.regs.wf = true)
    (hp : s.regs.phase = Phase.idle) (c : Pair) (R : List Pair) (is : List Instr) (n : Nat) :
    runSteps (R.length + n + 1) (s.presentAll
      (.start (c.setWidth 8) :: ((R.map fun p => .pix (p.setWidth 8)) ++ is))) =
      runSteps n ((feedPixels R (beginConversion (c.setWidth 8) s)).presentAll is) := by
  rw [runSteps_presentAll_cons (exec_start_presentAll hw hp c _),
    runSteps_pixels R is n (beginConversion_wf hw hp _) rfl]

/-- The bytes of the complete groups do not depend on what follows in the raster (R70). -/
theorem map_byte_take_pack_append (R rest : List Pair) (c : Pair) :
    ((pack (R ++ rest) (mapIndex c)).take (R.length / 4)).map Event.byte =
      packEvents R c (R.length / 4) := by
  have hle : R.length / 4 ≤ packLength (R ++ rest).length := by
    rw [packLength, List.length_append]; omega
  rw [List.map_take, map_byte_pack, packEvents, ← List.map_take, List.take_range,
    Nat.min_eq_left hle, ← packEvents_append R rest c, packEvents]

/-- Settles O42: the pixels fed have emitted the complete groups. -/
theorem bytesStreamInOrder : Obligations.BytesStreamInOrder := by
  intro s c R rest hw hp
  have hfed := packing_feedPixels hw hp c R
  have hrun := runSteps_start_pixels_commands hw hp c R [] 0
  rw [List.append_nil] at hrun
  refine ⟨_, hrun, hfed.phase, hfed.conv, hfed.fill, ?_⟩
  rw [map_byte_take_pack_append]
  exact hfed.out

/-! ### Rasters of any 8-bit values -/

theorem setWidth_lowPair {v : Imm} (hv : inRange v = true) : (lowPair v).setWidth 8 = v := by
  revert v
  decide

/-- A raster in range is the raster of its low pairs. -/
theorem map_setWidth_lowPair {R : List Imm} (hR : ∀ v ∈ R, inRange v = true) :
    (R.map lowPair).map (·.setWidth 8) = R := by
  rw [List.map_map]
  exact (List.map_congr_left fun v hv => setWidth_lowPair (hR v hv)).trans (List.map_id R)

/-- The reference function checks every element (R61). -/
theorem packChecked_of_all {R : List Imm} (hR : R.all inRange = true) (m : Pair → Pair) :
    packChecked R m = .ok (pack (R.map lowPair) m) := by
  rw [packChecked, if_pos hR]

theorem packChecked_of_not_all {R : List Imm} (hR : ¬ R.all inRange = true) (m : Pair → Pair) :
    packChecked R m = .error .invalidPixelValue := by
  rw [packChecked, if_neg hR]

/-- A raster not in range has a first pixel above 3. -/
theorem exists_first_out_of_range {R : List Imm} (hR : ¬ R.all inRange = true) :
    ∃ (P : List Pair) (v : Imm) (Q : List Imm),
      R = P.map (·.setWidth 8) ++ v :: Q ∧ inRange v = false := by
  induction R with
  | nil => simp at hR
  | cons u R ih =>
    cases hu : inRange u with
    | false => exact ⟨[], u, R, rfl, hu⟩
    | true =>
      obtain ⟨P, v, Q, rfl, hv⟩ := ih (by simpa [hu] using hR)
      exact ⟨lowPair u :: P, v, Q, by simp [setWidth_lowPair hu], hv⟩

/-- In phase ERR commands other than `CLR` run to their end and change nothing but the lines. -/
theorem runSteps_ignored {is : List Instr} (his : .clr ∉ is) {s : State}
    (hw : s.regs.wf = true) (hp : s.regs.phase = Phase.err) :
    ∃ t, runSteps is.length (s.presentAll is) = .next t ∧ t.regs = s.regs ∧ t.out = s.out := by
  induction is generalizing s with
  | nil => exact ⟨s, rfl, rfl, rfl⟩
  | cons i is ih =>
    obtain ⟨hi, his⟩ : .clr ≠ i ∧ .clr ∉ is := by simpa using his
    have hd : decode (encode i) ≠ .ok .clr := by simpa [decode_encode] using hi.symm
    have hexec : exec i (s.presentAll is) = .next ((quiet s).presentAll is) :=
      (runWord_encode i _).symm.trans (runWord_of_err (s := s.presentAll is) hw hp hd)
    rw [List.length_cons, runSteps_presentAll_cons hexec]
    exact ih his (s := quiet s) hw hp

/-- A conversion whose raster is legal up to a pixel above 3 ends in the error that pixel raises,
with the bytes of the complete groups before it (R65, R99). -/
theorem runSteps_conversion_of_invalid {s : State} (hw : s.regs.wf = true)
    (hp : s.regs.phase = Phase.idle) (c : Pair) (P : List Pair) {v : Imm}
    (hv : inRange v = false) (Q : List Imm) :
    ∃ t, runSteps ((P.map (·.setWidth 8) ++ v :: Q).length + 2)
        (s.presentAll (packCommands (c.setWidth 8) (P.map (·.setWidth 8) ++ v :: Q))) = .next t ∧
      t.regs.phase = Phase.err ∧ t.regs.errCode = RpkError.invalidPixelValue.code ∧
      t.out = s.out ++ packEvents P c (P.length / 4) := by
  have hfed := packing_feedPixels hw hp c P
  have hcommands : packCommands (c.setWidth 8) (P.map (·.setWidth 8) ++ v :: Q) =
      .start (c.setWidth 8) :: ((P.map fun p => .pix (p.setWidth 8)) ++
        .pix v :: (Q.map .pix ++ [.endRaster])) := by
    simp [packCommands]
  have hlen : (P.map (·.setWidth 8) ++ v :: Q).length + 2 =
      P.length + ((Q.map Instr.pix ++ [Instr.endRaster]).length + 1) + 1 := by
    simp
    omega
  have hraise : ∀ js,
      exec (.pix v) ((feedPixels P (beginConversion (c.setWidth 8) s)).presentAll js) =
        .next ((raise .invalidPixelValue
          (feedPixels P (beginConversion (c.setWidth 8) s))).presentAll js) := fun js =>
    exec_pix_of_invalid (s := State.presentAll js _) hfed.wf hfed.phase hv
  obtain ⟨t, hrun, hregs, hout⟩ := runSteps_ignored (is := Q.map .pix ++ [.endRaster]) (by simp)
    (raise_wf .invalidPixelValue _) (raise_phase _ .invalidPixelValue)
  refine ⟨t, ?_, ?_, ?_, ?_⟩
  · rw [hcommands, hlen, runSteps_start_pixels_commands hw hp,
      runSteps_presentAll_cons (hraise _), hrun]
  · rw [hregs, raise_phase]
  · rw [hregs, raise_errCode]
  · rw [hout, raise_out, hfed.out]

theorem done_not_mem_packEvents (R : List Pair) (c : Pair) (k : Nat) :
    Event.done ∉ packEvents R c k := by
  simp [packEvents]

/-- Settles O41: a raster in range is one of pairs; any other has a first pixel above 3. -/
theorem conversionFailsExactlyWherePackFails : Obligations.ConversionFailsExactlyWherePackFails := by
  intro s c R hw hp
  change ∃ t, _ ∧ _ ∧ _ ∧ ((∃ bs, packChecked R (mapIndex c) = .ok bs) ↔ R.all inRange = true)
  by_cases hR : R.all inRange = true
  · have hpairs := map_setWidth_lowPair (List.all_eq_true.mp hR)
    have hrun := runSteps_conversion hw hp c (R.map lowPair)
    rw [hpairs, List.length_map] at hrun
    refine ⟨_, hrun, ?_⟩
    rw [packChecked_of_all hR]
    refine ⟨fun bs hbs => ?_, by simp, by simp [hR]⟩
    cases hbs
    exact ⟨rfl, conversionResult_out hw hp c _⟩
  · obtain ⟨P, v, Q, hsplit, hv⟩ := exists_first_out_of_range hR
    obtain ⟨t, hrun, hphase, hcode, hout⟩ := runSteps_conversion_of_invalid hw hp c P hv Q
    rw [← hsplit] at hrun
    refine ⟨t, hrun, ?_⟩
    rw [packChecked_of_not_all hR]
    refine ⟨by simp, fun e he => ?_, by simp [hR]⟩
    cases he
    refine ⟨rfl, hphase, hcode, ?_⟩
    rw [hout, List.drop_left]
    exact done_not_mem_packEvents P c _

/-! ### The host that trusts bytes only after `Done` -/

theorem runObserved_succ {s t : State} (h : step s = .next t) (n : Nat) (v : HostView) :
    runObserved (n + 1) v s = runObserved n (v.observe t) t := by
  simp [runObserved, h]

/-- The host sees nothing of what is still to be presented. -/
theorem observe_presentAll (v : HostView) (s : State) (is : List Instr) :
    v.observe (s.presentAll is) = v.observe s := rfl

theorem runObserved_presentAll_cons {i : Instr} {is : List Instr} {s t : State}
    (h : exec i (s.presentAll is) = .next (t.presentAll is)) (n : Nat) (v : HostView) :
    runObserved (n + 1) v (s.presentAll (i :: is)) =
      runObserved n (v.observe t) (t.presentAll is) := by
  rw [runObserved_succ (by rw [presentAll_cons, step_present, runWord_encode, h]),
    observe_presentAll]

/-- The host's view with these bytes taken. -/
def HostView.take (v : HostView) (bs : List Byte) : HostView :=
  { v with provisional := v.provisional ++ bs }

@[simp] theorem HostView.take_nil (v : HostView) : v.take [] = v := by simp [HostView.take]

theorem HostView.take_take (v : HostView) (bs bs' : List Byte) :
    (v.take bs).take bs' = v.take (bs ++ bs') := by
  simp [HostView.take]

/-- The host's view with the conversion's bytes committed. -/
def HostView.commit (v : HostView) : HostView :=
  { provisional := [], committed := v.committed ++ [v.provisional] }

section
variable {t : State} (hl : t.lines = Lines.low) (v : HostView)
include hl

theorem observe_of_low_active (hp : t.regs.phase = Phase.active) : v.observe t = v := by
  simp [HostView.observe, hl, hp]

/-- The host drops what it holds when a step leaves phase ACTIVE without `Done` (R100, R111). -/
theorem observe_of_low_inactive (hp : t.regs.phase ≠ Phase.active) :
    v.observe t = { v with provisional := [] } := by
  simp [HostView.observe, hl, hp]

end

/-- The host takes the bytes an accepted pixel emits. -/
theorem observe_acceptPixel {t : State} (hp : t.regs.phase = Phase.active) (p : Pair)
    (v : HostView) :
    ∃ bs, (acceptPixel p t).out = t.out ++ bs.map Event.byte ∧
      v.observe (acceptPixel p t) = v.take bs := by
  obtain hf | hf := fill_lt_or_eq t.regs.fill
  · refine ⟨[], by simp [acceptPixel_of_lt hf], ?_⟩
    rw [observe_of_low_active (by simp [acceptPixel_of_lt hf]) v (by simp [hp]),
      HostView.take_nil]
  · rw [acceptPixel_of_full hf]
    exact ⟨[_], rfl, by simp [HostView.observe, HostView.take, hp]⟩

/-- The host takes the byte `END` emits, and commits. -/
theorem observe_finishConversion (t : State) (v : HostView) :
    ∃ bs, (finishConversion t).out = t.out ++ bs.map Event.byte ++ [.done] ∧
      v.observe (finishConversion t) = (v.take bs).commit := by
  by_cases hf : t.regs.fill = 0#2
  · rw [finishConversion_of_empty hf]
    exact ⟨[], by simp, by simp [HostView.observe, HostView.commit]⟩
  · rw [finishConversion_of_nonempty hf]
    exact ⟨[paddedByte t.regs], by simp,
      by simp [HostView.observe, HostView.take, HostView.commit]⟩

/-- The host takes the bytes that pixels emit. -/
theorem runObserved_pixels (R : List Pair) (is : List Instr) (n : Nat) {s : State}
    (hw : s.regs.wf = true) (hp : s.regs.phase = Phase.active) (v : HostView) :
    ∃ bs, (feedPixels R s).out = s.out ++ bs.map Event.byte ∧
      runObserved (R.length + n) v
          (s.presentAll ((R.map fun p => .pix (p.setWidth 8)) ++ is)) =
        runObserved n (v.take bs) ((feedPixels R s).presentAll is) := by
  induction R generalizing s v with
  | nil => exact ⟨[], by simp, by simp⟩
  | cons p R ih =>
    obtain ⟨b, hb, hobserve⟩ := observe_acceptPixel hp p v
    obtain ⟨bs, hbs, hrun⟩ := ih (acceptPixel_wf hw hp p) (by simp [hp]) (v.take b)
    refine ⟨b ++ bs, by simp [hbs, hb], ?_⟩
    rw [List.length_cons, Nat.succ_add, List.map_cons, List.cons_append,
      runObserved_presentAll_cons (exec_pix_presentAll hw hp p _), hobserve, hrun,
      HostView.take_take, feedPixels_cons]

/-- The host takes the bytes of `START` and legal pixels. -/
theorem runObserved_start_pixels {s : State} (hw : s.regs.wf = true)
    (hp : s.regs.phase = Phase.idle) (c : Pair) (R : List Pair) (is : List Instr) (n : Nat)
    (v : HostView) :
    ∃ bs, (feedPixels R (beginConversion (c.setWidth 8) s)).out = s.out ++ bs.map Event.byte ∧
      runObserved (R.length + n + 1) v (s.presentAll
          (.start (c.setWidth 8) :: ((R.map fun p => .pix (p.setWidth 8)) ++ is))) =
        runObserved n (v.take bs)
          ((feedPixels R (beginConversion (c.setWidth 8) s)).presentAll is) := by
  obtain ⟨bs, hbs, hrun⟩ :=
    runObserved_pixels R is n (beginConversion_wf hw hp (c.setWidth 8)) rfl v
  refine ⟨bs, by simpa using hbs, ?_⟩
  rw [runObserved_presentAll_cons (exec_start_presentAll hw hp c _),
    observe_of_low_active rfl v rfl, hrun]

/-- A host that holds nothing commits the reference function's bytes of a conversion (R100). -/
theorem runObserved_conversion {s : State} (hw : s.regs.wf = true)
    (hp : s.regs.phase = Phase.idle) (c : Pair) (R : List Pair) (kept : List (List Byte)) :
    runObserved (R.length + 2) { provisional := [], committed := kept }
      (s.presentAll (packCommands (c.setWidth 8) (R.map (·.setWidth 8)))) =
      some ({ provisional := [], committed := kept ++ [pack R (mapIndex c)] },
        conversionResult s c R) := by
  have hcommands : packCommands (c.setWidth 8) (R.map (·.setWidth 8)) =
      .start (c.setWidth 8) :: ((R.map fun p => .pix (p.setWidth 8)) ++ [.endRaster]) := by
    simp [packCommands]
  have hfed := packing_feedPixels hw hp c R
  obtain ⟨bs, hbs, hrun⟩ := runObserved_start_pixels hw hp c R [.endRaster] 1
    { provisional := [], committed := kept }
  obtain ⟨b, hb, hobserve⟩ := observe_finishConversion
    (feedPixels R (beginConversion (c.setWidth 8) s))
    (HostView.take { provisional := [], committed := kept } bs)
  have hpack : bs ++ b = pack R (mapIndex c) := by
    have hout := conversionResult_out hw hp c R
    rw [conversionResult, hb, hbs] at hout
    have hbytes : (bs ++ b).map Event.byte = (pack R (mapIndex c)).map Event.byte := by
      simpa only [List.append_assoc, List.append_cancel_left_eq, ← List.map_append,
        List.append_cancel_right_eq] using hout
    exact List.map_injective_iff.mpr (fun _ _ => Event.byte.inj) hbytes
  rw [hcommands, hrun, runObserved_presentAll_cons (t := conversionResult s c R)
    (exec_end_of_active hfed.wf hfed.phase), conversionResult, hobserve, ← hpack]
  rfl

/-- The words that end a conversion by an error or by `CLR` leave phase ACTIVE, emitting nothing
(R88 (b), (c)). -/
theorem runWord_of_failed_or_abandoned {w : CmdWord} {s : State} (hw : s.regs.wf = true)
    (hp : s.regs.phase = Phase.active)
    (h : (∃ why, decode w = .error why) ∨ (∃ conv, decode w = .ok (.start conv)) ∨
      (∃ v : Imm, 3#8 < v ∧ decode w = .ok (.pix v)) ∨ decode w = .ok .clr) :
    ∃ t, runWord w s = .next t ∧ t.lines = Lines.low ∧ t.regs.phase ≠ Phase.active := by
  by_cases hclr : decode w = .ok .clr
  · exact ⟨_, runWord_of_clr hclr s, rfl, by simp⟩
  · obtain ⟨e, hcause⟩ := exists_causes_of_active (w := w) hp (by simpa [hclr] using h)
    exact ⟨_, hcause.runWord_eq hw (by simp [hp]), rfl, by simp⟩

/-- Settles O46: `Done` commits the bytes taken, and a step out of phase ACTIVE without it drops
them. -/
theorem hostKeepsExactlyCompletedConversions :
    Obligations.HostKeepsExactlyCompletedConversions := by
  intro s c R kept hw hp
  refine ⟨⟨_, runObserved_conversion hw hp c R kept⟩, fun w hends => ?_⟩
  have hfed := packing_feedPixels hw hp c R
  obtain ⟨t, ht, hlow, hphase⟩ := runWord_of_failed_or_abandoned hfed.wf hfed.phase hends
  obtain ⟨bs, -, hrun⟩ := runObserved_start_pixels (s := s.present w) hw hp c R [] 1
    { provisional := [], committed := kept }
  have hword : step ((feedPixels R (beginConversion (c.setWidth 8) (s.present w))).presentAll []) =
      .next t := by
    rw [presentAll_nil, (beginConversion_commitsFromRegs _).present, feedPixels_present,
      step_present, ht]
  rw [List.append_nil, runObserved_succ hword, observe_of_low_inactive hlow _ hphase] at hrun
  exact ⟨t, hrun⟩

end Sys2Proof.Machine
